-- ==== Sys2Proof/Word.lean ====
section
/-! DEFINITION. The word of CORE: one 64-bit signed integer (00_scope.md R5, R6), and the wrap of an
exact integer into the word range. -/

namespace Sys2Proof

/-- A word: 64 bits read as a signed integer by `BitVec.toInt` (00_scope.md R5 `WORD_BITS`, R6).
Rules read a word only through `toInt`; no rule reads a bit of it (20_memory.md R34, log 2). -/
abbrev Word := BitVec 64

/-- `wrap64(x)`: the unique word congruent to `x` modulo 2^64 (00_scope.md R6). -/
def wrap64 (x : Int) : Word := BitVec.ofInt 64 x

/-- `WORD_MIN` (00_scope.md R5). -/
def wordMin : Int := -9223372036854775808

/-- `WORD_MAX` (00_scope.md R5). -/
def wordMax : Int := 9223372036854775807

end Sys2Proof
end

