-- ==== Sys2Proof/Config.lean ====
section
/-! DEFINITION. The implementation parameters of 00_scope.md R5: the address bound and the four named
parameters the spec leaves to a model, each at the value the spec gives it. -/

namespace Sys2Proof

/-- `OVERFLOW`: what add, multiply and adjust-relative-base do when the exact result is no word
(00_scope.md R5, D4). -/
inductive OverflowPolicy where
  | wrap
  | fault
  deriving DecidableEq, Repr

/-- `STRAY_DIGITS`: what decode does with a nonzero digit that belongs to no operand (R5, D8). -/
inductive StrayDigits where
  | fault
  | ignore
  deriving DecidableEq, Repr

/-- `STRICT_RESUME`: what `resume` does on a halted machine (R5, D14). -/
inductive StrictResume where
  | noop
  | error
  deriving DecidableEq, Repr

/-- The named parameters a model of CORE takes as arguments (00_scope.md R5; 92_eei_decisions.md,
"Named parameters left to the model"). `PROGRAM` is the argument of `construct` instead. -/
structure Params where
  overflow : OverflowPolicy
  strayDigits : StrayDigits
  strictResume : StrictResume
  hostPushDuringRun : Bool
  deriving DecidableEq, Repr

/-- The values this spec fixes (00_scope.md R5). DESIGN CHOICE of the spec, unsafe for `overflow`
(D4 errs toward proving; log 3), safe or neutral for the rest (logs 4, 5, 6). -/
def Config.params : Params where
  overflow := .wrap
  strayDigits := .fault
  strictResume := .noop
  hostPushDuringRun := false

/-- `ADDR_MAX` = 2^63 - 1, the greatest legal address (00_scope.md R5, D1). -/
def Config.addrMax : Nat := 9223372036854775807

end Sys2Proof
end

