-- ==== Sys2Proof/Machine/FaultCause.lean ====
section
/-! DEFINITION. The causes of a machine fault, each with the detail the spec says it records
(60_exceptions.md R141, R148). -/

namespace Sys2Proof.Machine

/-- Which access an `ADDRESS_FAULT` names (20_memory.md R31). -/
inductive AccessKind where
  | fetch
  | operandFetch
  /-- source cell or destination of operand `k` -/
  | operand (k : Nat)
  deriving DecidableEq, Repr

/-- A fault cause together with its `info` column of 60_exceptions.md R141 (log 10). -/
inductive FaultCause where
  /-- code 1, R142; info: the opcode value -/
  | unknownOpcode (opcode : Nat)
  /-- code 2, R143; info: the operand number -/
  | illegalWriteMode (operand : Nat)
  /-- code 3, R144; info: operand number and digit -/
  | badModeDigit (operand digit : Nat)
  /-- code 4, R145; info: the word -/
  | decodeError (word : Word)
  /-- code 5, R146; info: access kind and the exact address -/
  | addressFault (kind : AccessKind) (addr : Int)
  /-- code 6, R147; info: the exact result. Only with `OVERFLOW` = `fault`. -/
  | arithOverflow (exactResult : Int)
  deriving DecidableEq, Repr

/-- The code of a cause (60_exceptions.md R141). -/
def FaultCause.code : FaultCause → Nat
  | .unknownOpcode _ => 1
  | .illegalWriteMode _ => 2
  | .badModeDigit _ _ => 3
  | .decodeError _ => 4
  | .addressFault _ _ => 5
  | .arithOverflow _ => 6

end Sys2Proof.Machine
end

