-- ==== Sys2Proof/Machine/Flags.lean ====
section
/-! DEFINITION. CORE has no flags (10_state.md R19). What stands in their place: the overflow test, the
comparison results stored as words, and the jump condition. -/

namespace Sys2Proof.Machine

/-- The result word of an exact sum or product: wrapped, or `ARITH_OVERFLOW` where the policy is `fault` and
it is outside the word range (40_execution_cycle.md R75 phase 6; 41_arithmetic.md R87; D4). -/
def narrow (policy : OverflowPolicy) (exactResult : Int) : Except FaultCause Word :=
  if policy = .fault ∧ (exactResult < wordMin ∨ wordMax < exactResult) then
    .error (.arithOverflow exactResult)
  else .ok (wrap64 exactResult)

/-- The word a comparison stores: 1 or 0 (44_compare.md R102). -/
def truthWord (b : Bool) : Word := if b then 1 else 0

/-- `a < b` on the integers the words denote (R100, R102). -/
def lessThan (a b : Word) : Bool := decide (a.toInt < b.toInt)

/-- `a == b` on the integers the words denote (R101, R102). -/
def equalTo (a b : Word) : Bool := decide (a.toInt = b.toInt)

/-- The condition of the jumps: the value is not 0 (43_jumps.md R95, R96). -/
def isTrue (c : Word) : Bool := decide (c.toInt ≠ 0)

end Sys2Proof.Machine
end

