-- ==== Sys2Proof/Machine/State.lean ====
section
/-! DEFINITION. The state of one CORE instance: the nine elements of 10_state.md R10 to R18 as plain data,
its reset value, and the reasons a step can have no next state. -/

namespace Sys2Proof.Machine

/-- The memory `M`: the cells that do not hold 0, as address and word, addresses strictly rising (10_state.md
R12, 20_memory.md R44; log 1). An unlisted address reads 0. -/
abbrev Memory := List (Nat × Word)

/-- The fault record `FAULT` (10_state.md R18, 60_exceptions.md R148): the cause with its info, `IP` at the
faulting step, and the fetched instruction word (`none` for a fetch fault). -/
structure FaultRecord where
  cause : FaultCause
  ip : Word
  word : Option Word
  deriving DecidableEq, Repr

/-- The whole state of one instance (10_state.md R10 to R18; R19: there is no other). -/
structure State where
  /-- `IP` (R10) -/
  ip : Word
  /-- `RB` (R11) -/
  rb : Word
  /-- `M` (R12) -/
  mem : Memory
  /-- `HWM` (R14) -/
  hwm : Nat
  /-- `INQ` (R15), front first -/
  inq : List Word
  /-- `OUTQ` (R16), oldest first -/
  outq : List Word
  /-- `HALTED` (R17) -/
  halted : Bool
  /-- `HALT_IMPLICIT` (R17) -/
  haltImplicit : Bool
  /-- `FAULT` (R18) -/
  fault : Option FaultRecord
  deriving DecidableEq, Repr

/-- The machine right after reset, constructed from the empty program: every element at the value of
10_state.md R24 with n = 0 (log 7). -/
def State.reset : State where
  ip := 0
  rb := 0
  mem := []
  hwm := 0
  inq := []
  outq := []
  halted := false
  haltImplicit := false
  fault := none

/-- Why a state has no step (40_execution_cycle.md R70: "in any other state the core has no step"). A
machine fault is not one of these: it is taken, into a next state whose `FAULT` is recorded (log 8). -/
inductive Fault where
  /-- raised by `step` where `HALTED` is true; safe: the hardware executes nothing there (R70, R17) -/
  | halted
  /-- raised by `step` where `FAULT` is not `none`; safe: the hardware executes nothing there (R70, R152) -/
  | faulted
  deriving DecidableEq, Repr

/-- Instructions without a meaning. -/
inductive Refusal where
  /-- raised only by an arm of `exec` that has no meaning yet; safe. No arm raises it. -/
  | notModelled (mnemonic : String)
  deriving DecidableEq, Repr

/-- The outcome of a step or of an instruction (Host/Core.lean). -/
abbrev Outcome := Host.Outcome State Fault Refusal

end Sys2Proof.Machine
end

