-- ==== Sys2Proof/Machine/Memory.lean ====
section
/-! DEFINITION. Reading and writing one cell of the memory, and its canonical form (20_memory.md R31, R32,
R44; log 1). -/

namespace Sys2Proof.Machine

/-- What the cell at `a` holds: 0 where nothing is listed (20_memory.md R31). -/
def Memory.read : Memory → Nat → Word
  | [], _ => 0
  | (b, v) :: m, a => if b = a then v else Memory.read m a

/-- The memory with the cell at `a` listed as `v`. -/
def Memory.insert : Memory → Nat → Word → Memory
  | [], a, v => [(a, v)]
  | (b, u) :: m, a, v =>
    if b < a then (b, u) :: Memory.insert m a v
    else if b = a then (a, v) :: m
    else (a, v) :: (b, u) :: m

/-- The memory with the cell at `a` set to `v` (20_memory.md R32). A cell set to 0 is not listed, which keeps
the canonical form. -/
def Memory.write (m : Memory) (a : Nat) (v : Word) : Memory :=
  if v = 0 then m.filter fun c => c.1 != a else Memory.insert m a v

/-- The canonical form: addresses strictly rising, no listed cell 0. -/
abbrev Memory.wf (m : Memory) : Prop :=
  m.Pairwise (fun x y => x.1 < y.1) ∧ ∀ c ∈ m, c.2 ≠ 0

/-- The memory that holds the words `ws` at `a`, `a + 1`, … and 0 elsewhere (10_state.md R13, R24). -/
def Memory.ofWords (a : Nat) : List Word → Memory
  | [] => []
  | w :: ws => if w = 0 then Memory.ofWords (a + 1) ws else (a, w) :: Memory.ofWords (a + 1) ws

end Sys2Proof.Machine
end

