-- ==== Sys2Proof/Machine/Ops.lean ====
section
/-! DEFINITION. The shared operations on the state: the range-checked memory primitives, the IP update, and
fault entry (20_memory.md R31, R32; 40_execution_cycle.md R78; 60_exceptions.md R151). -/

namespace Sys2Proof.Machine

/-! ## Memory primitives -/

/-- The range check of MemRead and MemWrite: [0, `ADDR_MAX`], else `ADDRESS_FAULT` (R31, R32, D2). -/
def checkAddr (kind : AccessKind) (addr : Int) : Except FaultCause Nat :=
  if addr < 0 ∨ addr > Config.addrMax then .error (.addressFault kind addr) else .ok addr.toNat

/-- `MemRead(addr, 1)` (20_memory.md R31). It changes nothing. -/
def memRead (s : State) (kind : AccessKind) (addr : Int) : Except FaultCause Word := do
  let a ← checkAddr kind addr
  return s.mem.read a

/-- The effect of a `MemWrite` that passed its check: one cell, and `HWM` (R32, 10_state.md R14). -/
def State.store (s : State) (a : Nat) (v : Word) : State :=
  { s with mem := s.mem.write a v, hwm := max s.hwm (a + 1) }

/-- `MemWrite(addr, 1, v)` for operand `k` (20_memory.md R32). -/
def memWrite (s : State) (k : Nat) (addr : Int) (v : Word) : Except FaultCause State := do
  let a ← checkAddr (.operand k) addr
  return s.store a v

/-! ## The IP update -/

/-- `IP <- wrap64(IP + len)` (40_execution_cycle.md R78). -/
def State.advance (s : State) (len : Nat) : State :=
  { s with ip := wrap64 (s.ip.toInt + len) }

/-! ## Taking a fault, and the implicit halt -/

/-- `FAULT.word`: `none` for a fetch fault, else the instruction word `M[IP]` (10_state.md R18, log 11). -/
def faultWord (s : State) : FaultCause → Option Word
  | .addressFault .fetch _ => none
  | _ => some (s.mem.read s.ip.toInt.toNat)

/-- `raise`: fault entry. It writes `FAULT` and nothing else: no handler, no vector, no mode
(60_exceptions.md R148, R151). There is no return from a fault and nothing clears `FAULT` (R152), so no
operation stands beside it. -/
def State.raise (s : State) (c : FaultCause) : State :=
  { s with fault := some { cause := c, ip := s.ip, word := faultWord s c } }

/-- The implicit halt: `HALTED` and `HALT_IMPLICIT`, nothing else (40_execution_cycle.md R72). -/
def State.haltImplicitly (s : State) : State :=
  { s with halted := true, haltImplicit := true }

/-- The end of an instruction: its next state, or the fault its operands raised, entered in the state the
instruction began in (R79: a faulting step changes nothing but `FAULT`). -/
def finish (s : State) : Except FaultCause State → Outcome
  | .ok t => .next t
  | .error c => .next (s.raise c)

/-! ## The core is live -/

/-- The states in which the core has a step: not halted, not faulted (R70). -/
def State.live (s : State) : Bool := !s.halted && s.fault.isNone

/-! ## Placing words in memory (no operation of the core: log 13) -/

/-- The words `ws` stored at `a`, `a + 1`, … as far as the address space goes. -/
def State.place (s : State) (a : Nat) : List Word → State
  | [] => s
  | w :: ws => if a ≤ Config.addrMax then State.place (s.store a w) (a + 1) ws else s

end Sys2Proof.Machine
end

