-- ==== Sys2Proof/Syntax.lean ====
section
/-! DEFINITION. The instructions of CORE as syntax: one constructor per row of the opcode table, each with
its operands in encoding order (30_encoding.md R50, R54). -/

namespace Sys2Proof

/-- The three addressing modes (30_encoding.md R55). -/
inductive Mode where
  /-- digit 0 -/
  | position
  /-- digit 1 -/
  | immediate
  /-- digit 2 -/
  | relative
  deriving DecidableEq, Repr

/-- One operand: its mode digit and its operand word, `mode(k)` and `P(k)` (R51, R56). -/
structure Operand where
  mode : Mode
  word : Word
  deriving DecidableEq, Repr

/-- The ten instructions (R54), operands in encoding order: sources before the destination. -/
inductive Instr where
  /-- opcode 1, `add a, b, t` -/
  | add (a b t : Operand)
  /-- opcode 2, `mul a, b, t` -/
  | mul (a b t : Operand)
  /-- opcode 3, `in t` -/
  | inp (t : Operand)
  /-- opcode 4, `out a` -/
  | out (a : Operand)
  /-- opcode 5, `jt c, d` -/
  | jt (c d : Operand)
  /-- opcode 6, `jf c, d` -/
  | jf (c d : Operand)
  /-- opcode 7, `lt a, b, t` -/
  | lt (a b t : Operand)
  /-- opcode 8, `eq a, b, t` -/
  | eq (a b t : Operand)
  /-- opcode 9, `arb a` -/
  | arb (a : Operand)
  /-- opcode 99, `hlt` -/
  | hlt
  deriving DecidableEq, Repr

end Sys2Proof
end

