-- ==== Sys2Proof/Machine/Operands.lean ====
section
/-! DEFINITION. Operand resolution: every operand form of the spec, as a source and as a destination
(30_encoding.md R55 to R58). -/

namespace Sys2Proof.Machine

/-- The address a position or relative operand names, exact and not yet checked (R57, R58, D5). For an
immediate operand no address is named and the value is not used. -/
def effectiveAddress (s : State) (o : Operand) : Int :=
  match o.mode with
  | .relative => s.rb.toInt + o.word.toInt
  | _ => o.word.toInt

/-- `read(k)`: the value of source operand `k` (R57). -/
def readOperand (s : State) (k : Nat) (o : Operand) : Except FaultCause Word :=
  match o.mode with
  | .position => memRead s (.operand k) (effectiveAddress s o)
  | .immediate => .ok o.word
  | .relative => memRead s (.operand k) (effectiveAddress s o)

/-- `waddr(k)`: the target address of destination operand `k` (R58). The cell is not read. -/
def writeAddress (s : State) (k : Nat) (o : Operand) : Except FaultCause Nat :=
  match o.mode with
  | .position => checkAddr (.operand k) (effectiveAddress s o)
  | .immediate => .error (.illegalWriteMode k)
  | .relative => checkAddr (.operand k) (effectiveAddress s o)

end Sys2Proof.Machine
end

