-- ==== Sys2Proof/Machine/Arithmetic.lean ====
section
/-! DEFINITION. The arithmetic instructions add and multiply (41_arithmetic.md). -/

namespace Sys2Proof.Machine

/-- The frame of add and mul: sources, target, overflow test, one write, `IP + 4` (41_arithmetic.md R85, R86;
the order is 40_execution_cycle.md R75 to R78). -/
def arithmetic (policy : OverflowPolicy) (f : Int → Int → Int) (a b t : Operand) (s : State) : Outcome :=
  finish s do
    let x ← readOperand s 1 a
    let y ← readOperand s 2 b
    let d ← writeAddress s 3 t
    let r ← narrow policy (f x.toInt y.toInt)
    let s' ← memWrite s 3 d r
    return s'.advance 4

/-- `add` under either value of `OVERFLOW` (R85). -/
def execAddWith (policy : OverflowPolicy) (a b t : Operand) (s : State) : Outcome :=
  arithmetic policy (fun x y => x + y) a b t s

/-- `mul` under either value of `OVERFLOW` (R86). -/
def execMulWith (policy : OverflowPolicy) (a b t : Operand) (s : State) : Outcome :=
  arithmetic policy (fun x y => x * y) a b t s

/-- `add`, opcode 1 (41_arithmetic.md R85). -/
def execAdd (a b t : Operand) (s : State) : Outcome := execAddWith Config.params.overflow a b t s

/-- `mul`, opcode 2 (41_arithmetic.md R86). -/
def execMul (a b t : Operand) (s : State) : Outcome := execMulWith Config.params.overflow a b t s

end Sys2Proof.Machine
end

