-- ==== Sys2Proof/Machine/Compare.lean ====
section
/-! DEFINITION. The comparison instructions less-than and equals (44_compare.md). -/

namespace Sys2Proof.Machine

/-- The frame of lt and eq: sources, target, the word 1 or 0 stored, `IP + 4` (44_compare.md R100, R101). -/
def comparison (f : Word → Word → Bool) (a b t : Operand) (s : State) : Outcome :=
  finish s do
    let x ← readOperand s 1 a
    let y ← readOperand s 2 b
    let d ← writeAddress s 3 t
    let s' ← memWrite s 3 d (truthWord (f x y))
    return s'.advance 4

/-- `lt`, opcode 7 (44_compare.md R100). -/
def execLt (a b t : Operand) (s : State) : Outcome := comparison lessThan a b t s

/-- `eq`, opcode 8 (44_compare.md R101). -/
def execEq (a b t : Operand) (s : State) : Outcome := comparison equalTo a b t s

end Sys2Proof.Machine
end

