-- ==== Sys2Proof/Machine/Halt.lean ====
section
/-! DEFINITION. The halt instruction (46_halt.md). -/

namespace Sys2Proof.Machine

/-- `hlt`, opcode 99 (46_halt.md R110): `HALTED` is set, `IP` is not written, `HALT_IMPLICIT` stays. -/
def execHlt (s : State) : Outcome := .next { s with halted := true }

end Sys2Proof.Machine
end

