-- ==== Sys2Proof/Machine/InputOutput.lean ====
section
/-! DEFINITION. The input and output instructions (42_io.md). -/

namespace Sys2Proof.Machine

/-- `in`, opcode 3 (42_io.md R90): the target is checked first; then an empty `INQ` suspends, a next state
equal to the state before (40_execution_cycle.md R76, log 9); else the front word is popped and stored. -/
def execIn (t : Operand) (s : State) : Outcome :=
  finish s do
    let d ← writeAddress s 1 t
    match s.inq with
    | [] => return s
    | v :: rest =>
      let s' ← memWrite { s with inq := rest } 1 d v
      return s'.advance 2

/-- `out`, opcode 4 (42_io.md R91): the value is appended at the back of `OUTQ`. -/
def execOut (a : Operand) (s : State) : Outcome :=
  finish s do
    let v ← readOperand s 1 a
    return { s with outq := s.outq ++ [v] }.advance 2

end Sys2Proof.Machine
end

