-- ==== Sys2Proof/Machine/Jumps.lean ====
section
/-! DEFINITION. The control-transfer instructions jump-if-true and jump-if-false (43_jumps.md). -/

namespace Sys2Proof.Machine

/-- The frame of the jumps: both operands are resolved, taken or not (30_encoding.md R57); a taken jump loads
`IP` with operand 2's value, any word; else `IP + 3` (43_jumps.md R95, R96). -/
def jump (taken : Word → Bool) (c d : Operand) (s : State) : Outcome :=
  finish s do
    let x ← readOperand s 1 c
    let target ← readOperand s 2 d
    return if taken x then { s with ip := target } else s.advance 3

/-- `jt`, opcode 5 (43_jumps.md R95). -/
def execJt (c d : Operand) (s : State) : Outcome := jump isTrue c d s

/-- `jf`, opcode 6 (43_jumps.md R96). -/
def execJf (c d : Operand) (s : State) : Outcome := jump (fun x => !isTrue x) c d s

end Sys2Proof.Machine
end

