-- ==== Sys2Proof/Machine/RelativeBase.lean ====
section
/-! DEFINITION. The relative-base instruction adjust-relative-base (45_relative_base.md). -/

namespace Sys2Proof.Machine

/-- `arb` under either value of `OVERFLOW` (45_relative_base.md R105). The source is read with the old `RB`. -/
def execArbWith (policy : OverflowPolicy) (a : Operand) (s : State) : Outcome :=
  finish s do
    let v ← readOperand s 1 a
    let r ← narrow policy (s.rb.toInt + v.toInt)
    return { s with rb := r }.advance 2

/-- `arb`, opcode 9 (45_relative_base.md R105). -/
def execArb (a : Operand) (s : State) : Outcome := execArbWith Config.params.overflow a s

end Sys2Proof.Machine
end

