-- ==== Sys2Proof/Machine/Dispatch.lean ====
section
/-! DEFINITION. The dispatch: one arm per instruction, phases 5 to 9 of a step (40_execution_cycle.md R71). -/

namespace Sys2Proof.Machine

def exec (i : Instr) (s : State) : Host.Outcome State Fault Refusal :=
  match i with
  | .add a b t => Sys2Proof.Machine.execAdd a b t s
  | .mul a b t => Sys2Proof.Machine.execMul a b t s
  | .inp t => Sys2Proof.Machine.execIn t s
  | .out a => Sys2Proof.Machine.execOut a s
  | .jt c d => Sys2Proof.Machine.execJt c d s
  | .jf c d => Sys2Proof.Machine.execJf c d s
  | .lt a b t => Sys2Proof.Machine.execLt a b t s
  | .eq a b t => Sys2Proof.Machine.execEq a b t s
  | .arb a => Sys2Proof.Machine.execArb a s
  | .hlt => Sys2Proof.Machine.execHlt s

end Sys2Proof.Machine
end

