-- ==== Sys2Proof/WellFormed.lean ====
section
/-! DEFINITION. Which instructions are legal: no destination operand in immediate mode (30_encoding.md R55,
R58). It is the only condition: every operand word is legal (R59, last sentence). -/

namespace Sys2Proof

/-- A mode a destination operand may have: 0 or 2 (30_encoding.md R55). -/
def Mode.legalDestination : Mode → Bool
  | .position => true
  | .immediate => false
  | .relative => true

/-- The instruction has an encoding: its destination operand, if any, is not immediate (R54, R58). -/
def Instr.wellFormed : Instr → Bool
  | .add _ _ t => t.mode.legalDestination
  | .mul _ _ t => t.mode.legalDestination
  | .inp t => t.mode.legalDestination
  | .out _ => true
  | .jt _ _ => true
  | .jf _ _ => true
  | .lt _ _ t => t.mode.legalDestination
  | .eq _ _ t => t.mode.legalDestination
  | .arb _ => true
  | .hlt => true

end Sys2Proof
end

