-- ==== Sys2Proof/Decode.lean ====
section
/-! DEFINITION. The instruction decoder, total on every word, rejecting by fault cause (30_encoding.md R52),
and the encoder written from the same opcode map (R51, R54, R63). -/

namespace Sys2Proof

open Sys2Proof.Machine

/-! ## Decimal digits and the opcode map -/

/-- `digit_i(w)`, the decimal digit of weight 10^i (00_scope.md R6). -/
def digit (i n : Nat) : Nat := n / 10 ^ i % 10

/-- The mode digit of operand `k`: digit `k + 1` (30_encoding.md R51, R52). -/
def modeDigit (k n : Nat) : Nat := digit (k + 1) n

/-- The ten opcodes, a closed enumeration (R54; 60_exceptions.md R142). -/
inductive Opcode where
  | add | mul | inp | out | jt | jf | lt | eq | arb | hlt
  deriving DecidableEq, Repr

/-- The opcode a two-digit number selects (R54); 0 and 10 to 98 select none (R59). -/
def opcodeOf : Nat → Option Opcode
  | 1 => some .add
  | 2 => some .mul
  | 3 => some .inp
  | 4 => some .out
  | 5 => some .jt
  | 6 => some .jf
  | 7 => some .lt
  | 8 => some .eq
  | 9 => some .arb
  | 99 => some .hlt
  | _ => none

/-- The opcode value (R54). -/
def Opcode.number : Opcode → Nat
  | .add => 1
  | .mul => 2
  | .inp => 3
  | .out => 4
  | .jt => 5
  | .jf => 6
  | .lt => 7
  | .eq => 8
  | .arb => 9
  | .hlt => 99

/-- `N`, the number of operands (R54). -/
def Opcode.operands : Opcode → Nat
  | .add => 3
  | .mul => 3
  | .inp => 1
  | .out => 1
  | .jt => 2
  | .jf => 2
  | .lt => 3
  | .eq => 3
  | .arb => 1
  | .hlt => 0

/-- The number of the destination operand, where there is one (R54, R58). -/
def Opcode.destination : Opcode → Option Nat
  | .add => some 3
  | .mul => some 3
  | .inp => some 1
  | .out => none
  | .jt => none
  | .jf => none
  | .lt => some 3
  | .eq => some 3
  | .arb => none
  | .hlt => none

/-- The mode a digit names (R55). -/
def modeOf : Nat → Option Mode
  | 0 => some .position
  | 1 => some .immediate
  | 2 => some .relative
  | _ => none

/-- The digit of a mode (R55). -/
def Mode.digit : Mode → Nat
  | .position => 0
  | .immediate => 1
  | .relative => 2

/-! ## Decoding one opcode word -/

/-- A decoded opcode word: the opcode and `mode(1)` to `mode(N)` (R52). A mode beyond `N` is unused and
stands at `position`. -/
structure OpcodeWord where
  opcode : Opcode
  mode1 : Mode
  mode2 : Mode
  mode3 : Mode
  deriving DecidableEq, Repr

/-- `mode(k)`. -/
def OpcodeWord.mode (h : OpcodeWord) (k : Nat) : Mode :=
  match k with
  | 1 => h.mode1
  | 2 => h.mode2
  | _ => h.mode3

/-- Some digit of `n` belongs to no operand: weight 10^5 or more, or the mode position of an operand
beyond `N` (R52, R61). -/
def hasStrayDigit (operands n : Nat) : Bool :=
  n / 10 ^ 5 != 0 || [1, 2, 3].any fun k => decide (operands < k) && modeDigit k n != 0

/-- The mode of operand `k`, `BAD_MODE_DIGIT` where the digit is 3 to 9 (R52, R55). -/
def decodeMode (operands n k : Nat) : Except FaultCause Mode :=
  if k ≤ operands then
    match modeOf (modeDigit k n) with
    | some m => .ok m
    | none => .error (.badModeDigit k (modeDigit k n))
  else .ok .position

/-- The mode checks of R52, operands ascending, then the destination's mode. -/
def decodeModes (op : Opcode) (n : Nat) : Except FaultCause OpcodeWord := do
  let m1 ← decodeMode op.operands n 1
  let m2 ← decodeMode op.operands n 2
  let m3 ← decodeMode op.operands n 3
  let h : OpcodeWord := ⟨op, m1, m2, m3⟩
  match op.destination with
  | some d => if (h.mode d).legalDestination then .ok h else .error (.illegalWriteMode d)
  | none => .ok h

/-- `Decode(w)` (30_encoding.md R52), the checks in the order written there. -/
def decodeWord (stray : StrayDigits) (w : Word) : Except FaultCause OpcodeWord :=
  if w.toInt < 0 then .error (.decodeError w)
  else
    let n := w.toInt.toNat
    match opcodeOf (n % 100) with
    | none => .error (.unknownOpcode (n % 100))
    | some op =>
      if stray = .fault ∧ hasStrayDigit op.operands n = true then .error (.decodeError w)
      else decodeModes op n

/-- The instruction of a decoded opcode word with its operand words; words beyond `N` are not used
(R50, R54). -/
def OpcodeWord.instr (h : OpcodeWord) (p1 p2 p3 : Word) : Instr :=
  match h.opcode with
  | .add => .add ⟨h.mode1, p1⟩ ⟨h.mode2, p2⟩ ⟨h.mode3, p3⟩
  | .mul => .mul ⟨h.mode1, p1⟩ ⟨h.mode2, p2⟩ ⟨h.mode3, p3⟩
  | .inp => .inp ⟨h.mode1, p1⟩
  | .out => .out ⟨h.mode1, p1⟩
  | .jt => .jt ⟨h.mode1, p1⟩ ⟨h.mode2, p2⟩
  | .jf => .jf ⟨h.mode1, p1⟩ ⟨h.mode2, p2⟩
  | .lt => .lt ⟨h.mode1, p1⟩ ⟨h.mode2, p2⟩ ⟨h.mode3, p3⟩
  | .eq => .eq ⟨h.mode1, p1⟩ ⟨h.mode2, p2⟩ ⟨h.mode3, p3⟩
  | .arb => .arb ⟨h.mode1, p1⟩
  | .hlt => .hlt

/-! ## Decoding a sequence of words -/

/-- Why a sequence of words does not begin with an instruction. -/
inductive DecodeStop where
  /-- the opcode word is illegal (R59) -/
  | illegal (cause : FaultCause)
  /-- the sequence ends before the instruction does (the model's own, log 12) -/
  | truncated
  deriving DecidableEq, Repr

/-- The instruction a decoded opcode word makes with the operand words at the head of `ws`, and the words
after them; how many are taken is fixed by the opcode alone (R50, R62). -/
def takeOperands (h : OpcodeWord) (ws : List Word) : Except DecodeStop (Instr × List Word) :=
  match h.opcode.operands, ws with
  | 0, rest => .ok (h.instr 0 0 0, rest)
  | 1, p1 :: rest => .ok (h.instr p1 0 0, rest)
  | 2, p1 :: p2 :: rest => .ok (h.instr p1 p2 0, rest)
  | 3, p1 :: p2 :: p3 :: rest => .ok (h.instr p1 p2 p3, rest)
  | _, _ => .error .truncated

/-- The instruction at the head of a sequence of words, and the words after it (R50): the opcode word is
decoded first, then its operand words are taken. -/
def decode (stray : StrayDigits) : List Word → Except DecodeStop (Instr × List Word)
  | [] => .error .truncated
  | w :: ws =>
    match decodeWord stray w with
    | .error c => .error (.illegal c)
    | .ok h => takeOperands h ws

/-! ## Encoding -/

/-- The opcode of an instruction (R54). -/
def Instr.opcode : Instr → Opcode
  | .add _ _ _ => .add
  | .mul _ _ _ => .mul
  | .inp _ => .inp
  | .out _ => .out
  | .jt _ _ => .jt
  | .jf _ _ => .jf
  | .lt _ _ _ => .lt
  | .eq _ _ _ => .eq
  | .arb _ => .arb
  | .hlt => .hlt

/-- The operands of an instruction in encoding order (R50). -/
def Instr.operands : Instr → List Operand
  | .add a b t => [a, b, t]
  | .mul a b t => [a, b, t]
  | .inp t => [t]
  | .out a => [a]
  | .jt c d => [c, d]
  | .jf c d => [c, d]
  | .lt a b t => [a, b, t]
  | .eq a b t => [a, b, t]
  | .arb a => [a]
  | .hlt => []

/-- The length of an instruction in words, `N + 1` (R50). -/
def Instr.length (i : Instr) : Nat := i.opcode.operands + 1

/-- The mode digits of operands 1, 2, 3 as a number whose digit of weight 10^(k-1) is `mode(k)`;
an absent operand counts as 0 (R51, R53). -/
def modeDigits : List Operand → Nat
  | [] => 0
  | a :: rest => a.mode.digit + 10 * modeDigits rest

/-- The opcode word as a number: `10000·mode(3) + 1000·mode(2) + 100·mode(1) + opcode` (R63). -/
def Instr.opcodeNumber (i : Instr) : Nat := 100 * modeDigits i.operands + i.opcode.number

/-- The words of an instruction: the opcode word, then the operand words in order (R50, R63). -/
def encode (i : Instr) : List Word :=
  BitVec.ofNat 64 i.opcodeNumber :: i.operands.map (·.word)

/-! ## The host's numbering of an instruction's bits -/

/-- The four words of an instruction whose bits are numbered from the first word's bit 0 up, 64 bits a
word (log 13). -/
def tableWords (nbits w : Nat) : List Word :=
  let b := w % 2 ^ nbits
  [BitVec.ofNat 64 b, BitVec.ofNat 64 (b / 2 ^ 64), BitVec.ofNat 64 (b / 2 ^ 128),
    BitVec.ofNat 64 (b / 2 ^ 192)]

/-- The instruction the decoder reads from an instruction whose bits are `w`. -/
def decodeTableWord (nbits w : Nat) : Option Instr :=
  match decode Config.params.strayDigits (tableWords nbits w) with
  | .ok (i, _) => some i
  | .error _ => none

end Sys2Proof
end

