-- ==== Sys2Proof/Machine/Fetch.lean ====
section
/-! DEFINITION. Phases 1 to 4 of a step: the fetch-address test, the fetch, the decode and the operand word
fetch (40_execution_cycle.md R72 to R75), over any decoder and any execution of an instruction. -/

namespace Sys2Proof.Machine

/-- Phase 2, `w <- MemRead(IP, 1)` (R73). -/
def fetchWord (s : State) : Except FaultCause Word := memRead s .fetch s.ip.toInt

/-- `P(k)`, where the instruction has an operand `k`: `MemRead(IP + k, 1)`, the sum exact (30_encoding.md
R56). Where it has none, nothing is read and the value is not used. -/
def operandWord (s : State) (operands k : Nat) : Except FaultCause Word :=
  if k ≤ operands then memRead s .operandFetch (s.ip.toInt + k) else .ok 0

/-- Phase 4: the operand words, ascending, and the instruction they complete (R75). -/
def fetchOperands (s : State) (h : OpcodeWord) : Except FaultCause Instr := do
  let p1 ← operandWord s h.opcode.operands 1
  let p2 ← operandWord s h.opcode.operands 2
  let p3 ← operandWord s h.opcode.operands 3
  return h.instr p1 p2 p3

/-- Phases 2 to 4: the instruction at `IP`, or the cause that stops the step. -/
def fetchInstr (stray : StrayDigits) (s : State) : Except FaultCause Instr := do
  let w ← fetchWord s
  let h ← decodeWord stray w
  fetchOperands s h

/-- One step (R71). A halted or a faulted machine has none (R70). `IP` < 0 is a fetch fault and `IP` ≥ `HWM`
the implicit halt (R72); then the instruction at `IP` runs, or its fault is entered. -/
def stepWithExec (stray : StrayDigits) (run : Instr → State → Outcome) (s : State) : Outcome :=
  if s.halted then .fault .halted
  else if s.fault.isSome then .fault .faulted
  else if s.ip.toInt < 0 then .next (s.raise (.addressFault .fetch s.ip.toInt))
  else if s.hwm ≤ s.ip.toInt.toNat then .next s.haltImplicitly
  else
    match fetchInstr stray s with
    | .error c => .next (s.raise c)
    | .ok i => run i s

/-- The state in which the very next fetch finds the words `ws` (log 13): the machine is live, `IP` is a
legal address, and the words stand there. -/
def placeAtFetch (s : State) (ws : List Word) : State :=
  let ip : Word := if s.ip.toInt < 0 then 0 else s.ip
  { s with ip := ip, halted := false, haltImplicit := false, fault := none }.place ip.toInt.toNat ws

end Sys2Proof.Machine
end

