-- ==== Sys2Proof/Machine/Step.lean ====
section
/-! DEFINITION. One step of the core, and the host's placing of an instruction at the next fetch. -/

namespace Sys2Proof.Machine

/-- One step of the core (40_execution_cycle.md R70, R71), at the spec's parameter values. -/
def step (s : State) : Host.Outcome State Fault Refusal :=
  stepWithExec Config.params.strayDigits exec s

/-- `s` with an instruction whose bits are `w` stored where `step` fetches next (log 13). -/
def State.withFetchWord (s : State) (nbits w : Nat) : State := placeAtFetch s (tableWords nbits w)

end Sys2Proof.Machine
end

