-- ==== Sys2Proof/Machine/Variants.lean ====
section
/-! DEFINITION. The machine under any value of the spec's named parameters (00_scope.md R5; D4, D8). At
`Config.params` it is `exec` and `step`. -/

namespace Sys2Proof.Machine

/-- `exec` under the given `OVERFLOW`; only add, mul and arb depend on it (60_exceptions.md R147). -/
def execWith (policy : OverflowPolicy) (i : Instr) (s : State) : Outcome :=
  match i with
  | .add a b t => execAddWith policy a b t s
  | .mul a b t => execMulWith policy a b t s
  | .inp t => execIn t s
  | .out a => execOut a s
  | .jt c d => execJt c d s
  | .jf c d => execJf c d s
  | .lt a b t => execLt a b t s
  | .eq a b t => execEq a b t s
  | .arb a => execArbWith policy a s
  | .hlt => execHlt s

/-- `step` under the given parameters. -/
def stepWith (p : Params) (s : State) : Outcome :=
  stepWithExec p.strayDigits (execWith p.overflow) s

end Sys2Proof.Machine
end

