-- ==== Sys2Proof/Machine/HostOps.lean ====
section
/-! DEFINITION. The six host operations and the run of steps that `resume` makes (47_host_operations.md). -/

namespace Sys2Proof.Machine

/-! ## Construction -/

/-- `construct(program)`: the reset state with the program seeded at 0 (47_host_operations.md R116, 10_state.md
R24). No instance for a program longer than the address space (10_state.md R13). -/
def construct (program : List Word) : Option State :=
  if program.length ≤ Config.addrMax + 1 then
    some { State.reset with mem := Memory.ofWords 0 program, hwm := program.length }
  else none

/-! ## Input, output, the halted query -/

/-- `INQ <- INQ ++ values` (10_state.md R15). -/
def State.appendInput (s : State) (values : List Word) : State := { s with inq := s.inq ++ values }

/-- `enqueue(values)`: dropped on a halted or faulted machine (R117, C3). -/
def enqueue (values : List Word) (s : State) : State :=
  if s.live then s.appendInput values else s

/-- `read_output` (R120). -/
def readOutput (s : State) : List Word := s.outq

/-- `clear_output` (R121). -/
def clearOutput (s : State) : State := { s with outq := [] }

/-- `is_halted` (R122). -/
def isHalted (s : State) : Bool := s.halted

/-! ## The four outcomes of a step -/

/-- The machine is blocked on input: live, `INQ` empty, and the instruction at `IP` a legal `in` with a legal
target (10_state.md R20, 47_host_operations.md R119). -/
def blocked (p : Params) (s : State) : Bool :=
  s.live && decide (0 ≤ s.ip.toInt) && decide (s.ip.toInt.toNat < s.hwm) && s.inq.isEmpty &&
    match fetchInstr p.strayDigits s with
    | .ok (.inp t) => (writeAddress s 1 t).isOk
    | _ => false

/-- The outcome of a step (40_execution_cycle.md R70), with the state it leaves. -/
inductive StepOutcome where
  | continues (t : State)
  | suspends (t : State)
  | halts (t : State)
  | faults (t : State) (record : FaultRecord)
  /-- a halted or faulted machine has no step -/
  | noStep
  deriving DecidableEq, Repr

/-- Which of the four outcomes the step from `s` has. -/
def stepOutcome (p : Params) (s : State) : StepOutcome :=
  match stepWith p s with
  | .next t =>
    match t.fault with
    | some r => .faults t r
    | none => if t.halted then .halts t else if blocked p s then .suspends t else .continues t
  | .fault _ => .noStep
  | .refused _ => .noStep

/-! ## Runs -/

/-- How `resume` ends (R119, R130, R131, C4). -/
inductive ResumeResult where
  | halted
  | awaitingInput
  /-- the fatal-error signal, with what it carries -/
  | fatal (record : FaultRecord)
  /-- the misuse report of `STRICT_RESUME` = `error` (R130) -/
  | misuse
  deriving DecidableEq, Repr

/-- The loop of `resume` (R118) for at most `fuel` steps; `none`: it has not returned yet. The fuel is the
model's, not a bound of the machine (R125, log 14). -/
def runLoop (p : Params) : Nat → State → Option (ResumeResult × State)
  | 0, _ => none
  | fuel + 1, s =>
    match stepOutcome p s with
    | .continues t => runLoop p fuel t
    | .suspends t => some (.awaitingInput, t)
    | .halts t => some (.halted, t)
    | .faults t r => some (.fatal r, t)
    | .noStep => none

/-- The loop of `resume` where the host may append input before any step (`HOST_PUSH_DURING_RUN`, R160 (b));
with the parameter false nothing is appended. One entry of the schedule for each step. -/
def runLoopPushed (p : Params) : List (List Word) → State → Option (ResumeResult × State)
  | [], _ => none
  | values :: later, s =>
    match stepOutcome p (if p.hostPushDuringRun then s.appendInput values else s) with
    | .continues t => runLoopPushed p later t
    | .suspends t => some (.awaitingInput, t)
    | .halts t => some (.halted, t)
    | .faults t r => some (.fatal r, t)
    | .noStep => none

/-- What `resume` reports on a halted machine (R130). -/
def resumeHalted : StrictResume → ResumeResult
  | .noop => .halted
  | .error => .misuse

/-- `resume(newInputs)` (R118): the recorded fault again on a faulted machine (R131), nothing on a halted one
(R130), else the append and the loop. -/
def resume (p : Params) (fuel : Nat) (newInputs : List Word) (s : State) : Option (ResumeResult × State) :=
  match s.fault with
  | some r => some (.fatal r, s)
  | none =>
    if s.halted then some (resumeHalted p.strictResume, s)
    else runLoop p fuel (s.appendInput newInputs)

/-- `resume` where the host may append input before any step, by a schedule (R160 (b), log 6). -/
def resumePushed (p : Params) (schedule : List (List Word)) (newInputs : List Word) (s : State) :
    Option (ResumeResult × State) :=
  match s.fault with
  | some r => some (.fatal r, s)
  | none =>
    if s.halted then some (resumeHalted p.strictResume, s)
    else runLoopPushed p schedule (s.appendInput newInputs)

/-! ## The operations as one interface -/

/-- What the host may do to a constructed instance (R115, R124). -/
inductive HostCall where
  | enqueue (values : List Word)
  | resume (newInputs : List Word)
  | readOutput
  | clearOutput
  | isHalted
  deriving DecidableEq, Repr

/-- What the host gets back (R115). -/
inductive HostReply where
  | done
  | resumed (result : ResumeResult)
  | output (words : List Word)
  | haltedFlag (value : Bool)
  deriving DecidableEq, Repr

/-- One host operation, atomic (R115); `none`: a `resume` that has not returned within the fuel. -/
def hostCall (p : Params) (fuel : Nat) (c : HostCall) (s : State) : Option (HostReply × State) :=
  match c with
  | .enqueue values => some (.done, enqueue values s)
  | .resume newInputs => (resume p fuel newInputs s).map fun r => (.resumed r.1, r.2)
  | .readOutput => some (.output (readOutput s), s)
  | .clearOutput => some (.done, clearOutput s)
  | .isHalted => some (.haltedFlag (isHalted s), s)

/-- A sequence of host operations on one instance, in order, with every reply (R115, R123). -/
def hostSession (p : Params) (fuel : Nat) : List HostCall → State → Option (List HostReply × State)
  | [], s => some ([], s)
  | c :: later, s =>
    match hostCall p fuel c s with
    | none => none
    | some (reply, t) => (hostSession p fuel later t).map fun r => (reply :: r.1, r.2)

end Sys2Proof.Machine
end

