-- ==== Sys2Proof/Safety.lean ====
section
/-! DEFINITION. What counts as a safe state and a right result, in the terms the claims use. -/

namespace Sys2Proof.Machine

/-! ## Where a step starts -/

/-- The address in `IP`, where it is not negative. -/
def State.ipAddr (s : State) : Nat := s.ip.toInt.toNat

/-- The next step fetches: the machine is live and `IP` is in [0, `HWM` - 1] (40_execution_cycle.md R72, R73). -/
def State.fetches (s : State) : Prop := s.live = true ∧ 0 ≤ s.ip.toInt ∧ s.ipAddr < s.hwm

/-- The word the next step fetches, `M[IP]` (R73). -/
def State.opcodeWord (s : State) : Word := s.mem.read s.ipAddr

/-- The words `ws` stand at `IP`, `IP + 1`, …, inside the address space (30_encoding.md R50, R56). -/
def State.holdsAtIp (s : State) (ws : List Word) : Prop :=
  ∀ (k : Nat) (w : Word), ws[k]? = some w →
    s.ip.toInt + k ≤ Config.addrMax ∧ s.mem.read (s.ipAddr + k) = w

/-! ## What an instruction leaves alone -/

/-- Every cell and `HWM` are as before. -/
structure SameMemory (s t : State) : Prop where
  cells : ∀ a, t.mem.read a = s.mem.read a
  hwm : t.hwm = s.hwm

/-- The two queues are as before. -/
structure SameQueues (s t : State) : Prop where
  inq : t.inq = s.inq
  outq : t.outq = s.outq

/-- `HALTED`, `HALT_IMPLICIT` and `FAULT` are as before. -/
structure SameStatus (s t : State) : Prop where
  halted : t.halted = s.halted
  haltImplicit : t.haltImplicit = s.haltImplicit
  fault : t.fault = s.fault

/-- Cell `d` holds `v`, every other cell is as before, and `HWM` covers `d` (20_memory.md R32). -/
structure StoredWord (s t : State) (d : Nat) (v : Word) : Prop where
  cell : t.mem.read d = v
  others : ∀ a, a ≠ d → t.mem.read a = s.mem.read a
  hwm : t.hwm = max s.hwm (d + 1)

/-- `s` with a fault recorded: `FAULT` = (`cause`, `IP`, `word`), nothing else changed (60_exceptions.md R148,
R151). -/
def State.withFault (s : State) (cause : FaultCause) (word : Option Word) : State :=
  { s with fault := some { cause := cause, ip := s.ip, word := word } }

/-! ## Operands as a list -/

/-- How an operand is used (30_encoding.md R54). -/
inductive Role where
  | source
  | destination
  deriving DecidableEq, Repr

/-- The operands of an instruction with their roles, in encoding order (R54). -/
def operandRoles : Instr → List (Role × Operand)
  | .add a b t => [(.source, a), (.source, b), (.destination, t)]
  | .mul a b t => [(.source, a), (.source, b), (.destination, t)]
  | .inp t => [(.destination, t)]
  | .out a => [(.source, a)]
  | .jt c d => [(.source, c), (.source, d)]
  | .jf c d => [(.source, c), (.source, d)]
  | .lt a b t => [(.source, a), (.source, b), (.destination, t)]
  | .eq a b t => [(.source, a), (.source, b), (.destination, t)]
  | .arb a => [(.source, a)]
  | .hlt => []

/-- The fault of operand `k`, if it has one: a position or relative address outside [0, `ADDR_MAX`], or an
immediate destination (R57, R58). -/
def operandFault (s : State) (k : Nat) (role : Role) (o : Operand) : Option FaultCause :=
  if o.mode = .immediate then (if role = .destination then some (.illegalWriteMode k) else none)
  else if 0 ≤ effectiveAddress s o ∧ effectiveAddress s o ≤ Config.addrMax then none
  else some (.addressFault (.operand k) (effectiveAddress s o))

/-- The first fault among operands `k`, `k + 1`, … in ascending order (40_execution_cycle.md R75). -/
def firstOperandFault (s : State) : Nat → List (Role × Operand) → Option FaultCause
  | _, [] => none
  | k, (role, o) :: later =>
    match operandFault s k role o with
    | some c => some c
    | none => firstOperandFault s (k + 1) later

/-- The destination operand of an instruction and its number, where it has one (30_encoding.md R54, R58). -/
def destinationOf : Instr → Option (Nat × Operand)
  | .add _ _ t => some (3, t)
  | .mul _ _ t => some (3, t)
  | .inp t => some (1, t)
  | .out _ => none
  | .jt _ _ => none
  | .jf _ _ => none
  | .lt _ _ t => some (3, t)
  | .eq _ _ t => some (3, t)
  | .arb _ => none
  | .hlt => none

/-! ## What runs and sessions read and write on the queues -/

/-- The instruction that the step from `s` executes completely, and the state it leaves: the outcome *continue* of
40_execution_cycle.md R70. -/
def executed (p : Params) (s : State) : Option (Instr × State) :=
  match stepOutcome p s, fetchInstr p.strayDigits s with
  | .continues t, .ok i => some (i, t)
  | _, _ => none

/-- What the step from `s` stores, where it executes an `in`: the word that stands in its target cell after it
(42_io.md R92 (a)). -/
def storedByIn (p : Params) (s : State) : List Word :=
  match executed p s with
  | some (.inp o, t) =>
    match writeAddress s 1 o with
    | .ok d => [t.mem.read d]
    | .error _ => []
  | _ => []

/-- `read(1)`, where the step from `s` executes an `out` (R92 (b)). -/
def sentByOut (p : Params) (s : State) : List Word :=
  match executed p s with
  | some (.out a, _) =>
    match readOperand s 1 a with
    | .ok v => [v]
    | .error _ => []
  | _ => []

/-- The states from which the loop of `resume` makes its steps, in order (47_host_operations.md R118). -/
def runStates (p : Params) : Nat → State → List State
  | 0, _ => []
  | fuel + 1, s =>
    s :: match stepOutcome p s with
      | .continues t => runStates p fuel t
      | _ => []

/-- The states from which one host operation makes steps: those of a `resume` on a live machine. -/
def callStates (p : Params) (fuel : Nat) (c : HostCall) (s : State) : List State :=
  match c with
  | .resume newInputs => if s.live then runStates p fuel (s.appendInput newInputs) else []
  | .enqueue _ => []
  | .readOutput => []
  | .clearOutput => []
  | .isHalted => []

/-- The words one host operation appends to `INQ`: those given while the machine is live (R117, R118). -/
def callInput (c : HostCall) (s : State) : List Word :=
  match c with
  | .enqueue values => if s.live then values else []
  | .resume newInputs => if s.live then newInputs else []
  | .readOutput => []
  | .clearOutput => []
  | .isHalted => []

/-- The words one host operation clears from `OUTQ` (R121). -/
def callCleared (c : HostCall) (s : State) : List Word :=
  match c with
  | .clearOutput => s.outq
  | .enqueue _ => []
  | .resume _ => []
  | .readOutput => []
  | .isHalted => []

/-- What `f` answers for each operation of a session, in the state it is made in, joined in order. -/
def overSession {α : Type} (p : Params) (fuel : Nat) (f : HostCall → State → List α) :
    List HostCall → State → List α
  | [], _ => []
  | c :: later, s =>
    f c s ++ match hostCall p fuel c s with
      | some (_, t) => overSession p fuel f later t
      | none => []

/-! ## Legal opcode words -/

/-- The legal opcode words of 30_encoding.md R65, one list for each instruction as its table has them. -/
def legalOpcodeWords : Opcode → List Nat
  | .add => [1, 101, 201, 1001, 1101, 1201, 2001, 2101, 2201, 20001, 20101, 20201, 21001, 21101, 21201, 22001, 22101, 22201]
  | .mul => [2, 102, 202, 1002, 1102, 1202, 2002, 2102, 2202, 20002, 20102, 20202, 21002, 21102, 21202, 22002, 22102, 22202]
  | .inp => [3, 203]
  | .out => [4, 104, 204]
  | .jt => [5, 105, 205, 1005, 1105, 1205, 2005, 2105, 2205]
  | .jf => [6, 106, 206, 1006, 1106, 1206, 2006, 2106, 2206]
  | .lt => [7, 107, 207, 1007, 1107, 1207, 2007, 2107, 2207, 20007, 20107, 20207, 21007, 21107, 21207, 22007, 22107, 22207]
  | .eq => [8, 108, 208, 1008, 1108, 1208, 2008, 2108, 2208, 20008, 20108, 20208, 21008, 21108, 21208, 22008, 22108, 22208]
  | .arb => [9, 109, 209]
  | .hlt => [99]

/-! ## The invariant -/

/-- What holds in every reachable state: the spec's invariants (10_state.md R23 (b), (c), (d); (f) holds by
type), the ranges of R14, and what `FAULT` and `HALT_IMPLICIT` record (R17, R18), with the model's canonical
memory (log 1). -/
structure State.Inv (s : State) : Prop where
  memCanonical : s.mem.wf
  unwrittenReadZero : ∀ a, s.hwm ≤ a → s.mem.read a = 0
  hwmInRange : s.hwm ≤ Config.addrMax + 1
  notHaltedAndFaulted : s.halted = true → s.fault = none
  implicitHaltHalts : s.haltImplicit = true → s.halted = true
  implicitHaltAtEnd : s.halted = true → (s.haltImplicit = true ↔ (s.hwm : Int) ≤ s.ip.toInt)
  faultRecordsIp : ∀ r, s.fault = some r → r.ip = s.ip
  faultRecordsWord : ∀ r, s.fault = some r →
    r.word = if s.ip.toInt < 0 then none else some s.opcodeWord

/-! ## The end of a program -/

/-- The program has ended and the result counts: halted by `hlt`, not by the implicit halt
(47_host_operations.md R127, D15). -/
def State.finalExplicit (s : State) : Prop := s.halted = true ∧ s.haltImplicit = false

end Sys2Proof.Machine
end

