-- ==== Sys2Proof/Certificates/Slice0/Obligations.lean ====
section
/-! DEFINITION. The statements for the provers, each formalising rules of the spec. -/

open Sys2Proof Sys2Proof.Machine

/-! ## Encoding and decoding -/

/-- Words written out from 30_encoding.md R51 and R63 (the examples of 41 to 46 and 95) decode to the
instruction they stand for, one for each family. -/
def Obligations.WrittenOutWordsDecodeToTheirInstruction : Prop :=
  decode .fault [1001, 100, 1, 100] =
      .ok (.add ⟨.position, 100⟩ ⟨.immediate, 1⟩ ⟨.position, 100⟩, []) ∧
  decode .fault [22202, 1, 2, 3, 99] = .ok (.mul ⟨.relative, 1⟩ ⟨.relative, 2⟩ ⟨.relative, 3⟩, [99]) ∧
  decode .fault [203, 5] = .ok (.inp ⟨.relative, 5⟩, []) ∧
  decode .fault [204, -1] = .ok (.out ⟨.relative, -1⟩, []) ∧
  decode .fault [105, 1, 2] = .ok (.jt ⟨.immediate, 1⟩ ⟨.position, 2⟩, []) ∧
  decode .fault [1006, 101, 0] = .ok (.jf ⟨.position, 101⟩ ⟨.immediate, 0⟩, []) ∧
  decode .fault [20107, 1, 18, 20] = .ok (.lt ⟨.immediate, 1⟩ ⟨.position, 18⟩ ⟨.relative, 20⟩, []) ∧
  decode .fault [1008, 100, 16, 101] =
      .ok (.eq ⟨.position, 100⟩ ⟨.immediate, 16⟩ ⟨.position, 101⟩, []) ∧
  decode .fault [109, -5] = .ok (.arb ⟨.immediate, -5⟩, []) ∧
  decode .fault [99] = .ok (.hlt, [])

/-- Decoding the words of a well-formed instruction gives it back, with every mode and every operand word, and
leaves the words after it (R50, R51, R63). -/
def Obligations.DecodingAnEncodedInstructionGivesItBack : Prop :=
  ∀ (stray : StrayDigits) (i : Instr) (rest : List Word), i.wellFormed = true →
    decode stray (encode i ++ rest) = .ok (i, rest)

/-- What decodes is well formed and is exactly the encoding of what it decodes to (R50 to R52, R61). -/
def Obligations.EncodingADecodedInstructionGivesItsWordsBack : Prop :=
  ∀ (ws rest : List Word) (i : Instr), decode .fault ws = .ok (i, rest) →
    i.wellFormed = true ∧ ws = encode i ++ rest

/-- R65: the legal opcode words of each instruction are those of its table, 99 in all, and every other word
faults on fetch. -/
def Obligations.LegalOpcodeWordsAreExactlyTheNinetyNine : Prop :=
  (∀ (w : Word) (op : Opcode), (∃ h, decodeWord .fault w = .ok h ∧ h.opcode = op) ↔
      0 ≤ w.toInt ∧ w.toInt.toNat ∈ legalOpcodeWords op) ∧
  ([Opcode.add, .mul, .inp, .out, .jt, .jf, .lt, .eq, .arb, .hlt].flatMap legalOpcodeWords).Nodup ∧
  ([Opcode.add, .mul, .inp, .out, .jt, .jf, .lt, .eq, .arb, .hlt].flatMap legalOpcodeWords).length = 99 ∧
  ∀ s : State, s.fetches →
    (∀ op, ¬ (0 ≤ s.opcodeWord.toInt ∧ s.opcodeWord.toInt.toNat ∈ legalOpcodeWords op)) →
    ∃ c, step s = .next (s.withFault c (some s.opcodeWord))

/-- R61: a digit that belongs to no operand faults under `STRAY_DIGITS` = `fault`; under `ignore` such digits
are not examined. -/
def Obligations.StrayDigitsFaultOrAreIgnored : Prop :=
  (∀ (s : State) (op : Opcode), s.fetches → 0 ≤ s.opcodeWord.toInt →
    opcodeOf (s.opcodeWord.toInt.toNat % 100) = some op →
    s.opcodeWord.toInt.toNat / 10 ^ (op.operands + 2) ≠ 0 →
    step s = .next (s.withFault (.decodeError s.opcodeWord) (some s.opcodeWord))) ∧
  ∀ (w : Word) (op : Opcode), 0 ≤ w.toInt → opcodeOf (w.toInt.toNat % 100) = some op →
    decodeWord .ignore w =
      decodeWord .fault (BitVec.ofNat 64 (w.toInt.toNat % 10 ^ (op.operands + 2)))

/-- R60: a negative opcode word faults with `DECODE_ERROR`. -/
def Obligations.NegativeOpcodeWordFaults : Prop :=
  ∀ s : State, s.fetches → s.opcodeWord.toInt < 0 →
    step s = .next (s.withFault (.decodeError s.opcodeWord) (some s.opcodeWord))

/-- R142: two low digits other than 1 to 9 and 99 fault with `UNKNOWN_OPCODE`. -/
def Obligations.UnknownOpcodeFaults : Prop :=
  ∀ s : State, s.fetches → 0 ≤ s.opcodeWord.toInt →
    s.opcodeWord.toInt.toNat % 100 ∉ [1, 2, 3, 4, 5, 6, 7, 8, 9, 99] →
    step s = .next (s.withFault (.unknownOpcode (s.opcodeWord.toInt.toNat % 100)) (some s.opcodeWord))

/-- R144: a mode digit 3 to 9 on an operand the instruction has faults; the lowest-numbered is reported. -/
def Obligations.LowestBadModeDigitFaults : Prop :=
  ∀ (s : State) (op : Opcode) (k : Nat), s.fetches → 0 ≤ s.opcodeWord.toInt →
    opcodeOf (s.opcodeWord.toInt.toNat % 100) = some op →
    s.opcodeWord.toInt.toNat / 10 ^ (op.operands + 2) = 0 →
    1 ≤ k → k ≤ op.operands → 2 < modeDigit k s.opcodeWord.toInt.toNat →
    (∀ j, 1 ≤ j → j < k → modeDigit j s.opcodeWord.toInt.toNat ≤ 2) →
    step s = .next (s.withFault (.badModeDigit k (modeDigit k s.opcodeWord.toInt.toNat)) (some s.opcodeWord))

/-- R143: mode digit 1 on a destination faults with `ILLEGAL_WRITE_MODE`, from the word alone. -/
def Obligations.ImmediateDestinationFaults : Prop :=
  ∀ (s : State) (op : Opcode) (d : Nat), s.fetches → 0 ≤ s.opcodeWord.toInt →
    opcodeOf (s.opcodeWord.toInt.toNat % 100) = some op →
    s.opcodeWord.toInt.toNat / 10 ^ (op.operands + 2) = 0 →
    (∀ k, 1 ≤ k → k ≤ op.operands → modeDigit k s.opcodeWord.toInt.toNat ≤ 2) →
    op.destination = some d → modeDigit d s.opcodeWord.toInt.toNat = 1 →
    step s = .next (s.withFault (.illegalWriteMode d) (some s.opcodeWord))

/-! ## The execution cycle -/

/-- When the words of a well-formed instruction stand at `IP` and the machine fetches, the step is that
instruction (R71, R73, R75). Nothing is added around it. -/
def Obligations.StepRunsTheInstructionAtIp : Prop :=
  ∀ (s : State) (i : Instr), s.fetches → i.wellFormed = true → s.holdsAtIp (encode i) → step s = exec i s

/-- R70: a step is defined exactly where the machine is neither halted nor faulted, and its outcome is one of
the four. -/
def Obligations.StepIsDefinedExactlyWhereLive : Prop :=
  ∀ s : State,
    (s.live = true → ∃ t, step s = .next t) ∧
    (s.halted = true → step s = .fault .halted) ∧
    (s.halted = false → s.fault ≠ none → step s = .fault .faulted) ∧
    (s.live = true → stepOutcome Config.params s ≠ .noStep) ∧
    ∀ t, (stepOutcome Config.params s = .suspends t → t = s) ∧
      (stepOutcome Config.params s = .halts t → t.halted = true) ∧
      ∀ r, stepOutcome Config.params s = .faults t r → t = { s with fault := some r }

/-- R72: a negative `IP` raises the fetch fault, `IP` at or above `HWM` halts implicitly. -/
def Obligations.FetchTestFaultsOrHaltsImplicitly : Prop :=
  ∀ s : State, s.live = true →
    (s.ip.toInt < 0 → step s = .next (s.withFault (.addressFault .fetch s.ip.toInt) none)) ∧
    (0 ≤ s.ip.toInt → (s.hwm : Int) ≤ s.ip.toInt →
      step s = .next { s with halted := true, haltImplicit := true })

/-- R56 with R150 (7): an operand word above `ADDR_MAX` raises `ADDRESS_FAULT(operand-fetch)`, lowest first. -/
def Obligations.OperandWordAboveAddrMaxFaults : Prop :=
  ∀ (s : State) (h : OpcodeWord) (k : Nat), s.fetches → decodeWord .fault s.opcodeWord = .ok h →
    1 ≤ k → k ≤ h.opcode.operands → s.ip.toInt + k > Config.addrMax →
    (∀ j : Nat, 1 ≤ j → j < k → s.ip.toInt + j ≤ Config.addrMax) →
    step s = .next (s.withFault (.addressFault .operandFetch (s.ip.toInt + k)) (some s.opcodeWord))

/-- R75, phase 5, with R150 (8): the first operand, in ascending order, that does not resolve raises its fault,
and nothing else changes; an instruction whose operands all resolve raises none. It holds of `exec` called on any
state and any instruction: that `FAULT.word` is then `M[IP]` is log 11, and that an ill-formed instruction, which
`step` never runs, reports an earlier operand's `ADDRESS_FAULT` before its immediate destination is the model's own
choice, log 18, and not the order of R150. -/
def Obligations.FirstOperandThatFailsIsRaised : Prop :=
  ∀ (s : State) (i : Instr),
    (∀ c, firstOperandFault s 1 (operandRoles i) = some c →
      exec i s = .next (s.withFault c (some s.opcodeWord))) ∧
    (firstOperandFault s 1 (operandRoles i) = none → ∃ t, exec i s = .next t ∧ t.fault = s.fault)

/-- R76: the outcome is suspend exactly where a legal `in` with a legal target stands at `IP` and `INQ` is
empty; then nothing changes, and the run returns `AwaitingInput`. -/
def Obligations.SuspensionIsExactlyInputOnAnEmptyQueue : Prop :=
  ∀ (p : Params) (s t : State),
    (stepOutcome p s = .suspends t ↔
      t = s ∧ s.fetches ∧ s.inq = [] ∧
        ∃ o d, fetchInstr p.strayDigits s = .ok (.inp o) ∧ writeAddress s 1 o = .ok d) ∧
    (stepOutcome p s = .suspends t → stepWith p s = .next s ∧
      ∀ n, runLoop p (n + 1) s = some (.awaitingInput, s))

/-- R79: a step that faults changes nothing but `FAULT`, one that suspends changes nothing, one that halts
implicitly changes nothing but `HALTED` and `HALT_IMPLICIT`. -/
def Obligations.FaultSuspensionAndImplicitHaltArePrecise : Prop :=
  ∀ (p : Params) (s t : State), stepWith p s = .next t →
    (t.fault ≠ none → t = { s with fault := t.fault } ∧ ∀ r, t.fault = some r → r.ip = s.ip) ∧
    (blocked p s = true → t = s) ∧
    (s.haltImplicit = false → t.haltImplicit = true → t = { s with halted := true, haltImplicit := true })

/-- R148: what a fault records: `ip`, `word`, and the `info` of its cause (the column of R141). -/
def Obligations.FaultRecordTellsPointerWordAndInfo : Prop :=
  ∀ (s t : State) (r : FaultRecord), step s = .next t → t.fault = some r →
    r.ip = s.ip ∧ r.word = (if s.ip.toInt < 0 then none else some s.opcodeWord) ∧
    match r.cause with
    | .unknownOpcode n => 0 ≤ s.opcodeWord.toInt ∧ n = s.opcodeWord.toInt.toNat % 100 ∧ opcodeOf n = none
    | .illegalWriteMode k => ∃ op, opcodeOf (s.opcodeWord.toInt.toNat % 100) = some op ∧
        op.destination = some k ∧ modeDigit k s.opcodeWord.toInt.toNat = 1
    | .badModeDigit k d => ∃ op, opcodeOf (s.opcodeWord.toInt.toNat % 100) = some op ∧
        1 ≤ k ∧ k ≤ op.operands ∧ d = modeDigit k s.opcodeWord.toInt.toNat ∧ 2 < d
    | .decodeError w => w = s.opcodeWord
    | .addressFault .fetch a => a = s.ip.toInt ∧ a < 0
    | .addressFault .operandFetch a => ∃ k : Nat, 1 ≤ k ∧ k ≤ 3 ∧ a = s.ip.toInt + k ∧ Config.addrMax < a
    | .addressFault (.operand k) a => ¬ (0 ≤ a ∧ a ≤ Config.addrMax) ∧
        ∃ i ro, fetchInstr .fault s = .ok i ∧ 1 ≤ k ∧ (operandRoles i)[k - 1]? = some ro ∧
          a = effectiveAddress s ro.2
    | .arithOverflow _ => False

/-! ## Memory and operands -/

/-- R31: MemRead faults outside [0, `ADDR_MAX`] with the kind and the address, and answers the cell inside.
That an address which is not listed is a cell never seeded or written other than with 0 is log 1. -/
def Obligations.MemReadIsRangeChecked : Prop :=
  ∀ (s : State) (kind : AccessKind) (addr : Int),
    (addr < 0 ∨ addr > Config.addrMax → memRead s kind addr = .error (.addressFault kind addr)) ∧
    (0 ≤ addr → addr ≤ Config.addrMax → memRead s kind addr = .ok (s.mem.read addr.toNat)) ∧
    ((∀ c ∈ s.mem, c.1 ≠ addr.toNat) → s.mem.read addr.toNat = 0)

/-- R32: MemWrite faults outside [0, `ADDR_MAX`]; inside it changes exactly one cell and, possibly, `HWM`. -/
def Obligations.MemWriteChangesOneCellAndHwm : Prop :=
  ∀ (s : State) (k : Nat) (addr : Int) (v : Word),
    (addr < 0 ∨ addr > Config.addrMax → memWrite s k addr v = .error (.addressFault (.operand k) addr)) ∧
    (0 ≤ addr → addr ≤ Config.addrMax → ∃ t, memWrite s k addr v = .ok t ∧
      StoredWord s t addr.toNat v ∧ t = { s with mem := t.mem, hwm := t.hwm })

/-- R43, R14: a write above `HWM` moves it to the written address plus one, and a cell between the old mark and
the new one reads 0. -/
def Obligations.CellsBetweenOldAndNewMarkReadZero : Prop :=
  ∀ (s : State) (k d : Nat) (v : Word), s.Inv → s.hwm ≤ d → d ≤ Config.addrMax →
    ∃ t, memWrite s k d v = .ok t ∧ t.hwm = d + 1 ∧ t.mem.read d = v ∧
      ∀ a, s.hwm ≤ a → a < d → t.mem.read a = 0

/-- R39: a stored word is what the next fetch at that address reads; in particular what add stores at the
address of the next instruction is the opcode word of the next step. -/
def Obligations.StoreIsSeenByTheNextFetch : Prop :=
  (∀ (s t : State) (k : Nat) (d : Nat) (v ip : Word), memWrite s k d v = .ok t → ip.toInt = d →
    fetchWord { t with ip := ip } = .ok v) ∧
  ∀ (s : State) (a b o : Operand) (x y : Word) (d : Nat), readOperand s 1 a = .ok x →
    readOperand s 2 b = .ok y → writeAddress s 3 o = .ok d → (wrap64 (s.ip.toInt + 4)).toInt = d →
    ∃ t, exec (.add a b o) s = .next t ∧ fetchWord t = .ok (wrap64 (x.toInt + y.toInt))

/-- R57: the value of a source operand in each mode, and the fault of an address out of range. -/
def Obligations.SourceOperandByMode : Prop :=
  ∀ (s : State) (k : Nat) (w : Word),
    (∀ v, readOperand s k ⟨.position, w⟩ = .ok v ↔ 0 ≤ w.toInt ∧ v = s.mem.read w.toInt.toNat) ∧
    (w.toInt < 0 → readOperand s k ⟨.position, w⟩ = .error (.addressFault (.operand k) w.toInt)) ∧
    readOperand s k ⟨.immediate, w⟩ = .ok w ∧
    (∀ v, readOperand s k ⟨.relative, w⟩ = .ok v ↔
      0 ≤ s.rb.toInt + w.toInt ∧ s.rb.toInt + w.toInt ≤ Config.addrMax ∧
        v = s.mem.read (s.rb.toInt + w.toInt).toNat) ∧
    (¬ (0 ≤ s.rb.toInt + w.toInt ∧ s.rb.toInt + w.toInt ≤ Config.addrMax) →
      readOperand s k ⟨.relative, w⟩ = .error (.addressFault (.operand k) (s.rb.toInt + w.toInt)))

/-- R58: the target address of a destination operand in each mode. -/
def Obligations.DestinationOperandByMode : Prop :=
  ∀ (s : State) (k : Nat) (w : Word),
    (∀ d, writeAddress s k ⟨.position, w⟩ = .ok d ↔ 0 ≤ w.toInt ∧ d = w.toInt.toNat) ∧
    (w.toInt < 0 → writeAddress s k ⟨.position, w⟩ = .error (.addressFault (.operand k) w.toInt)) ∧
    writeAddress s k ⟨.immediate, w⟩ = .error (.illegalWriteMode k) ∧
    (∀ d, writeAddress s k ⟨.relative, w⟩ = .ok d ↔
      0 ≤ s.rb.toInt + w.toInt ∧ s.rb.toInt + w.toInt ≤ Config.addrMax ∧
        d = (s.rb.toInt + w.toInt).toNat) ∧
    (¬ (0 ≤ s.rb.toInt + w.toInt ∧ s.rb.toInt + w.toInt ≤ Config.addrMax) →
      writeAddress s k ⟨.relative, w⟩ = .error (.addressFault (.operand k) (s.rb.toInt + w.toInt)))

/-- R106: a relative operand with word d names the cell of the position operand with word `RB` + d, for reading
and for writing; and a value written through the one reads back through the other. -/
def Obligations.RelativeOperandNamesThePositionCell : Prop :=
  ∀ (s : State) (j k : Nat) (w : Word), 0 ≤ s.rb.toInt + w.toInt → s.rb.toInt + w.toInt ≤ Config.addrMax →
    readOperand s k ⟨.relative, w⟩ = readOperand s k ⟨.position, wrap64 (s.rb.toInt + w.toInt)⟩ ∧
    writeAddress s k ⟨.relative, w⟩ = writeAddress s k ⟨.position, wrap64 (s.rb.toInt + w.toInt)⟩ ∧
    ∀ v, ∃ d t, writeAddress s k ⟨.relative, w⟩ = .ok d ∧ memWrite s k d v = .ok t ∧
      readOperand t j ⟨.position, wrap64 (s.rb.toInt + w.toInt)⟩ = .ok v

/-! ## The instructions -/

/-- `add` (R85): the wrapped sum is stored at the target, `IP` advances by 4, nothing else changes. -/
def Obligations.AddStoresTheWrappedSum : Prop :=
  ∀ (s : State) (a b o : Operand) (x y : Word) (d : Nat),
    readOperand s 1 a = .ok x → readOperand s 2 b = .ok y → writeAddress s 3 o = .ok d →
    ∃ t, exec (.add a b o) s = .next t ∧ StoredWord s t d (wrap64 (x.toInt + y.toInt)) ∧
      t.ip = wrap64 (s.ip.toInt + 4) ∧ t.rb = s.rb ∧ SameQueues s t ∧ SameStatus s t

/-- `mul` (R86): the wrapped product. -/
def Obligations.MulStoresTheWrappedProduct : Prop :=
  ∀ (s : State) (a b o : Operand) (x y : Word) (d : Nat),
    readOperand s 1 a = .ok x → readOperand s 2 b = .ok y → writeAddress s 3 o = .ok d →
    ∃ t, exec (.mul a b o) s = .next t ∧ StoredWord s t d (wrap64 (x.toInt * y.toInt)) ∧
      t.ip = wrap64 (s.ip.toInt + 4) ∧ t.rb = s.rb ∧ SameQueues s t ∧ SameStatus s t

/-- `lt` (R100): 1 if a < b as signed integers, else 0, always written. -/
def Obligations.LtStoresTheSignedComparison : Prop :=
  ∀ (s : State) (a b o : Operand) (x y : Word) (d : Nat),
    readOperand s 1 a = .ok x → readOperand s 2 b = .ok y → writeAddress s 3 o = .ok d →
    ∃ t, exec (.lt a b o) s = .next t ∧ StoredWord s t d (if x.toInt < y.toInt then 1 else 0) ∧
      t.ip = wrap64 (s.ip.toInt + 4) ∧ t.rb = s.rb ∧ SameQueues s t ∧ SameStatus s t

/-- `eq` (R101): 1 if the two words are the same integer, else 0, always written. -/
def Obligations.EqStoresTheEqualityTest : Prop :=
  ∀ (s : State) (a b o : Operand) (x y : Word) (d : Nat),
    readOperand s 1 a = .ok x → readOperand s 2 b = .ok y → writeAddress s 3 o = .ok d →
    ∃ t, exec (.eq a b o) s = .next t ∧ StoredWord s t d (if x.toInt = y.toInt then 1 else 0) ∧
      t.ip = wrap64 (s.ip.toInt + 4) ∧ t.rb = s.rb ∧ SameQueues s t ∧ SameStatus s t

/-- `in` (R90) with input: the front word is removed and stored unchanged, `IP` advances by 2. -/
def Obligations.InStoresTheFrontOfTheQueue : Prop :=
  ∀ (s : State) (o : Operand) (v : Word) (rest : List Word) (d : Nat),
    writeAddress s 1 o = .ok d → s.inq = v :: rest →
    ∃ t, exec (.inp o) s = .next t ∧ StoredWord s t d v ∧ t.inq = rest ∧
      t.ip = wrap64 (s.ip.toInt + 2) ∧ t.rb = s.rb ∧ t.outq = s.outq ∧ SameStatus s t

/-- `in` (R90) on an empty queue: suspension, in the model a next state equal to the
state before (log 9). A target that faults faults first; `FAULT.word` of `exec` called directly is log 11. -/
def Obligations.InOnAnEmptyQueueChangesNothing : Prop :=
  ∀ (s : State) (o : Operand), s.inq = [] →
    (∀ d, writeAddress s 1 o = .ok d → exec (.inp o) s = .next s) ∧
    ∀ c, writeAddress s 1 o = .error c → exec (.inp o) s = .next (s.withFault c (some s.opcodeWord))

/-- `out` (R91): the value is appended at the back of `OUTQ`, `IP` advances by 2. -/
def Obligations.OutAppendsItsValue : Prop :=
  ∀ (s : State) (a : Operand) (v : Word), readOperand s 1 a = .ok v →
    ∃ t, exec (.out a) s = .next t ∧ t.outq = s.outq ++ [v] ∧ t.ip = wrap64 (s.ip.toInt + 2) ∧
      SameMemory s t ∧ t.rb = s.rb ∧ t.inq = s.inq ∧ SameStatus s t

/-- `jt` (R95): taken exactly when operand 1 is not 0; operand 2 is the absolute target. -/
def Obligations.JtJumpsExactlyOnNonzero : Prop :=
  ∀ (s : State) (c d : Operand) (x y : Word), readOperand s 1 c = .ok x → readOperand s 2 d = .ok y →
    ∃ t, exec (.jt c d) s = .next t ∧
      t.ip = (if x.toInt ≠ 0 then y else wrap64 (s.ip.toInt + 3)) ∧
      SameMemory s t ∧ t.rb = s.rb ∧ SameQueues s t ∧ SameStatus s t

/-- `jf` (R96): taken exactly when operand 1 is 0. -/
def Obligations.JfJumpsExactlyOnZero : Prop :=
  ∀ (s : State) (c d : Operand) (x y : Word), readOperand s 1 c = .ok x → readOperand s 2 d = .ok y →
    ∃ t, exec (.jf c d) s = .next t ∧
      t.ip = (if x.toInt = 0 then y else wrap64 (s.ip.toInt + 3)) ∧
      SameMemory s t ∧ t.rb = s.rb ∧ SameQueues s t ∧ SameStatus s t

/-- `arb` (R105): `RB` becomes the wrapped sum with the source, read with the old `RB`. -/
def Obligations.ArbAddsToTheRelativeBase : Prop :=
  ∀ (s : State) (a : Operand) (v : Word), readOperand s 1 a = .ok v →
    ∃ t, exec (.arb a) s = .next t ∧ t.rb = wrap64 (s.rb.toInt + v.toInt) ∧
      t.ip = wrap64 (s.ip.toInt + 2) ∧ SameMemory s t ∧ SameQueues s t ∧ SameStatus s t

/-- `hlt` (R110): `HALTED` is set and nothing else changes, `IP` and `HALT_IMPLICIT` included. -/
def Obligations.HltSetsHaltedAlone : Prop :=
  ∀ s : State, ∃ t, exec .hlt s = .next t ∧ t.halted = true ∧ t.haltImplicit = s.haltImplicit ∧
    t.fault = s.fault ∧ t.ip = s.ip ∧ t.rb = s.rb ∧ SameMemory s t ∧ SameQueues s t

/-- The frame of the storing instructions add, mul, in, lt, eq, in every form and also where they fault: only
the target cell, `HWM`, `IP`, `FAULT` and, for `in`, `INQ` may change. -/
def Obligations.StoringInstructionsChangeOnlyTheTargetCell : Prop :=
  ∀ (i : Instr) (k : Nat) (o : Operand) (s t : State), destinationOf i = some (k, o) → exec i s = .next t →
    (∀ d, writeAddress s k o = .ok d → ∀ a, a ≠ d → t.mem.read a = s.mem.read a) ∧
    (∀ c, writeAddress s k o = .error c → SameMemory s t) ∧
    t.rb = s.rb ∧ t.outq = s.outq ∧ t.halted = s.halted ∧ t.haltImplicit = s.haltImplicit ∧
    ((∀ x, i ≠ .inp x) → t.inq = s.inq) ∧
    (firstOperandFault s 1 (operandRoles i) = none → t.fault = s.fault)

/-- The frame of the instructions that store nothing, out, jt, jf, arb, hlt, in every form: all memory and
`INQ` are unchanged; `OUTQ` changes only by out, `RB` only by arb, `HALTED` only by hlt. -/
def Obligations.OtherInstructionsLeaveMemoryAlone : Prop :=
  ∀ (i : Instr) (s t : State), destinationOf i = none → exec i s = .next t →
    SameMemory s t ∧ t.inq = s.inq ∧ t.haltImplicit = s.haltImplicit ∧
    ((∀ a, i ≠ .out a) → t.outq = s.outq) ∧ ((∀ a, i ≠ .arb a) → t.rb = s.rb) ∧
    (i ≠ .hlt → t.halted = s.halted) ∧
    (firstOperandFault s 1 (operandRoles i) = none → t.fault = s.fault)

/-! ## Rules about the whole machine -/

/-- R11: `RB` is written only by adjust-relative-base. -/
def Obligations.OnlyArbChangesTheRelativeBase : Prop :=
  ∀ s t : State, step s = .next t → t.rb ≠ s.rb →
    ∃ a v, fetchInstr .fault s = .ok (.arb a) ∧ readOperand s 1 a = .ok v ∧
      t.rb = wrap64 (s.rb.toInt + v.toInt)

/-- R12, R22: a step changes memory only at the destination address of the instruction at `IP`. -/
def Obligations.OnlyDestinationsChangeMemory : Prop :=
  ∀ s t : State, step s = .next t →
    SameMemory s t ∨ ∃ i k o d v, fetchInstr .fault s = .ok i ∧ destinationOf i = some (k, o) ∧
      writeAddress s k o = .ok d ∧ StoredWord s t d v

/-- R23 (e), R15, R16: a step takes at most one word from the front of `INQ`, only by `in`, and appends at most
one at the back of `OUTQ`, only by `out`. -/
def Obligations.StepPopsAndAppendsAtMostOneWord : Prop :=
  ∀ s t : State, step s = .next t →
    (t.inq = s.inq ∨ ∃ v o d, s.inq = v :: t.inq ∧ fetchInstr .fault s = .ok (.inp o) ∧
      writeAddress s 1 o = .ok d ∧ t.mem.read d = v) ∧
    (t.outq = s.outq ∨ ∃ v a, t.outq = s.outq ++ [v] ∧ fetchInstr .fault s = .ok (.out a) ∧
      readOperand s 1 a = .ok v)

/-- R17: `HALTED` is set only by the halt instruction and by the implicit halt, and `HALT_IMPLICIT` exactly by
the latter. -/
def Obligations.OnlyHaltsSetHalted : Prop :=
  ∀ s t : State, step s = .next t → t.halted = true →
    (fetchInstr .fault s = .ok .hlt ∧ t.haltImplicit = s.haltImplicit) ∨
      (0 ≤ s.ip.toInt ∧ (s.hwm : Int) ≤ s.ip.toInt ∧ t.haltImplicit = true)

/-- R16: no instruction reads `OUTQ`: with another content the step is the same and appends the same words. -/
def Obligations.OutputIsNeverRead : Prop :=
  ∀ (p : Params) (s t : State) (q : List Word), stepWith p s = .next t →
    ∃ out, t.outq = s.outq ++ out ∧
      stepWith p { s with outq := q } = .next { t with outq := q ++ out }

/-- R15, R160: a step that does not suspend is the same whatever stands behind the front of `INQ`. -/
def Obligations.AppendedInputIsNotSeenUnlessBlocked : Prop :=
  ∀ (p : Params) (s t : State) (values : List Word), blocked p s = false → stepWith p s = .next t →
    stepWith p (s.appendInput values) = .next (t.appendInput values)

/-- The invariants of R23, with what R14, R17, R18 and R148 say of `HWM`, `HALT_IMPLICIT` and `FAULT`, and the
canonical memory (log 1), are kept by every step, under every value of the parameters. -/
def Obligations.EveryStepKeepsTheInvariant : Prop :=
  ∀ (p : Params) (s t : State), s.Inv → stepWith p s = .next t → t.Inv

/-- The invariant holds at reset, the construction from the empty program (log 7). -/
def Obligations.InvariantHoldsAtReset : Prop := State.reset.Inv

/-- The invariant holds after every construction and is kept by every host operation (the fuel of its runs is the
model's, log 14). -/
def Obligations.HostOperationsKeepTheInvariant : Prop :=
  (∀ program s, construct program = some s → s.Inv) ∧
  ∀ (p : Params) (fuel : Nat) (c : HostCall) (reply : HostReply) (s t : State), s.Inv →
    hostCall p fuel c s = some (reply, t) → t.Inv

/-- R14: `HWM` never decreases, and moves only to 1 plus an address written. -/
def Obligations.HighWaterMarkNeverDecreases : Prop :=
  (∀ (p : Params) (s t : State), stepWith p s = .next t → s.hwm ≤ t.hwm ∧
    (t.hwm = s.hwm ∨ ∃ i k o d, fetchInstr p.strayDigits s = .ok i ∧ destinationOf i = some (k, o) ∧
      writeAddress s k o = .ok d ∧ t.hwm = d + 1)) ∧
  ∀ (p : Params) (fuel : Nat) (c : HostCall) (reply : HostReply) (s t : State),
    hostCall p fuel c s = some (reply, t) → s.hwm ≤ t.hwm

/-! ## Reset and the host operations -/

/-- R24: the value of every element after construction, `State.reset` being the construction from the empty
program (log 7); an instance exists for every program of at most `ADDR_MAX` + 1 words (R13), and for no longer one
(the model's choice, log 20). -/
def Obligations.ConstructionGivesTheResetValues : Prop :=
  ∀ program : List Word,
    ((construct program).isSome = true ↔ program.length ≤ Config.addrMax + 1) ∧
    construct [] = some State.reset ∧
    ∀ s, construct program = some s →
      s.ip = 0 ∧ s.rb = 0 ∧ (∀ a w, program[a]? = some w → s.mem.read a = w) ∧
      (∀ a, program.length ≤ a → s.mem.read a = 0) ∧ s.hwm = program.length ∧ s.inq = [] ∧ s.outq = [] ∧
      s.halted = false ∧ s.haltImplicit = false ∧ s.fault = none

/-- R117: enqueue appends in order on a live machine and is dropped on a stopped one, and a resume with inputs
is an enqueue of them followed by a resume with none. -/
def Obligations.ResumeIsEnqueueThenResume : Prop :=
  ∀ (p : Params) (fuel : Nat) (values : List Word) (s : State),
    (s.live = true → enqueue values s = { s with inq := s.inq ++ values }) ∧
    (s.live = false → enqueue values s = s) ∧
    resume p fuel values s = resume p fuel [] (enqueue values s)

/-- R120, R121, R122: the output is read whole and left alone, cleared whole, and the halted flag is read
without a side effect and is false after a fault. -/
def Obligations.OutputAccessAndHaltedQuery : Prop :=
  ∀ (p : Params) (fuel : Nat) (s : State),
    hostCall p fuel .readOutput s = some (.output s.outq, s) ∧
    hostCall p fuel .clearOutput s = some (.done, { s with outq := [] }) ∧
    hostCall p fuel .isHalted s = some (.haltedFlag s.halted, s) ∧
    (s.Inv → s.fault ≠ none → hostCall p fuel .isHalted s = some (.haltedFlag false, s))

/-- R119: what holds when `resume` returns each of its results. -/
def Obligations.ResumeResultsMeanWhatTheySay : Prop :=
  ∀ (p : Params) (fuel : Nat) (values : List Word) (s t : State) (r : ResumeResult),
    resume p fuel values s = some (r, t) →
    match r with
    | .halted => t.halted = true
    | .awaitingInput => t.halted = false ∧ t.fault = none ∧ t.inq = [] ∧
        ∃ o d, fetchInstr p.strayDigits t = .ok (.inp o) ∧ writeAddress t 1 o = .ok d
    | .fatal rec => t.fault = some rec
    | .misuse => p.strictResume = .error ∧ s.halted = true ∧ t = s

/-- R126: a resume with no input on a blocked machine returns `AwaitingInput` and changes nothing; with one
word it consumes exactly that word and proceeds. The fuel is the model's (log 14). -/
def Obligations.SuspensionIsResumableAndIdempotent : Prop :=
  ∀ (p : Params) (s : State), blocked p s = true →
    (∀ fuel, resume p (fuel + 1) [] s = some (.awaitingInput, s)) ∧
    ∀ v, ∃ o d t, fetchInstr p.strayDigits s = .ok (.inp o) ∧ writeAddress s 1 o = .ok d ∧
      StoredWord s t d v ∧ t.inq = [] ∧ t.ip = wrap64 (s.ip.toInt + 2) ∧
      ∀ fuel, resume p (fuel + 1) [v] s = runLoop p fuel t

/-- R130 and R131: on a halted machine resume reports `Halted` (or misuse, by `STRICT_RESUME`), on a faulted one
the recorded fault again, and neither resume nor enqueue changes anything. -/
def Obligations.ResumeOfAStoppedMachineChangesNothing : Prop :=
  ∀ (p : Params) (fuel : Nat) (values : List Word) (s : State),
    (s.halted = true → s.fault = none →
      resume p fuel values s =
        some (match p.strictResume with
          | .noop => .halted
          | .error => .misuse, s) ∧ enqueue values s = s) ∧
    ∀ r, s.fault = some r → resume p fuel values s = some (.fatal r, s) ∧ enqueue values s = s

/-- R23 (g), R152: on a halted or faulted machine no step is defined and no host operation changes anything but
`OUTQ`, and that only `clear_output`. -/
def Obligations.StoppedMachineIsFrozen : Prop :=
  ∀ (p : Params) (s : State), s.live = false →
    (∀ t, stepWith p s ≠ .next t) ∧
    ∀ (fuel : Nat) (c : HostCall) (reply : HostReply) (t : State), hostCall p fuel c s = some (reply, t) →
      t = { s with outq := t.outq } ∧ (c ≠ .clearOutput → t = s)

/-- R125: a machine whose step changes nothing and is no suspension never returns from `resume`: for no fuel
(log 14). -/
def Obligations.AStepThatChangesNothingNeverReturns : Prop :=
  ∀ (p : Params) (s : State), blocked p s = false → stepWith p s = .next s →
    ∀ fuel, resume p fuel [] s = none

/-- R92 (a) and (b), over one run and over the whole life of an instance: the words that the executed `in`
instructions stored, followed by what is still queued, are what was queued and what the host appended, in order;
the `read(1)` values of the executed `out` instructions are what was appended to `OUTQ`, of which the host cleared
a prefix at a time. The fuel is the model's (log 14). -/
def Obligations.RunsLoseAndReorderNoInputAndNoOutput : Prop :=
  (∀ (p : Params) (fuel : Nat) (values : List Word) (s t : State) (r : ResumeResult), s.live = true →
    resume p fuel values s = some (r, t) →
    s.inq ++ values = (runStates p fuel (s.appendInput values)).flatMap (storedByIn p) ++ t.inq ∧
      t.outq = s.outq ++ (runStates p fuel (s.appendInput values)).flatMap (sentByOut p)) ∧
  ∀ (p : Params) (fuel : Nat) (calls : List HostCall) (s t : State) (replies : List HostReply),
    hostSession p fuel calls s = some (replies, t) →
    s.inq ++ overSession p fuel callInput calls s =
        (overSession p fuel (callStates p fuel) calls s).flatMap (storedByIn p) ++ t.inq ∧
      s.outq ++ (overSession p fuel (callStates p fuel) calls s).flatMap (sentByOut p) =
        overSession p fuel callCleared calls s ++ t.outq

/-- R160: with `HOST_PUSH_DURING_RUN` = false a schedule of pushes changes nothing; with true, a run with pushes
ends as the run in which the words pushed until then were queued before it, so the program reads the same values.
The fuel is the model's (log 14). -/
def Obligations.PushesDuringARunAreAsIfQueuedBefore : Prop :=
  ∀ (p : Params) (schedule : List (List Word)) (values : List Word) (s : State),
    (p.hostPushDuringRun = false →
      resumePushed p schedule values s = resume p schedule.length values s) ∧
    ∀ r t, p.hostPushDuringRun = true → resumePushed p schedule values s = some (r, t) →
      ∃ n, n ≤ schedule.length ∧
        resume p schedule.length (values ++ (schedule.take n).flatten) s = some (r, t)

/-- R23 over the whole life of an instance: after any sequence of host operations the invariant holds, and from
then on a halted machine stays halted, a fault stays recorded as it is, and `HWM` does not decrease. The canonical
memory (log 1) and the fuel (log 14) are the model's. -/
def Obligations.EverySessionKeepsTheInvariants : Prop :=
  ∀ (p : Params) (fuel : Nat) (program : List Word) (calls later : List HostCall)
    (replies replies' : List HostReply) (s t u : State), construct program = some s →
    hostSession p fuel calls s = some (replies, t) → hostSession p fuel later t = some (replies', u) →
    t.Inv ∧ replies.length = calls.length ∧ t.hwm ≤ u.hwm ∧ (t.halted = true → u.halted = true) ∧
      ∀ r, t.fault = some r → u.fault = some r

/-! ## The named parameters -/

/-- R147, with R75 and R141: `ARITH_OVERFLOW` is never raised with `OVERFLOW` = `wrap`; with `fault` it is raised by
add, mul and arb, and by them exactly where their operands resolve and the exact result is outside the word range;
where an operand does not resolve, its fault comes first (R150: phase 5 before phase 6). `FAULT.word` of `execWith`
called directly is log 11. -/
def Obligations.ArithOverflowExistsOnlyUnderFault : Prop :=
  (∀ (p : Params) (s t : State) (r : FaultRecord), p.overflow = .wrap → stepWith p s = .next t →
    t.fault = some r → r.cause.code ≠ 6) ∧
  (∀ (s : State) (a b o : Operand) (x y : Word) (d : Nat), readOperand s 1 a = .ok x →
    readOperand s 2 b = .ok y → writeAddress s 3 o = .ok d →
    execWith .fault (.add a b o) s =
      (if wordMin ≤ x.toInt + y.toInt ∧ x.toInt + y.toInt ≤ wordMax then exec (.add a b o) s
        else .next (s.withFault (.arithOverflow (x.toInt + y.toInt)) (some s.opcodeWord))) ∧
    execWith .fault (.mul a b o) s =
      (if wordMin ≤ x.toInt * y.toInt ∧ x.toInt * y.toInt ≤ wordMax then exec (.mul a b o) s
        else .next (s.withFault (.arithOverflow (x.toInt * y.toInt)) (some s.opcodeWord)))) ∧
  (∀ (s : State) (a : Operand) (v : Word), readOperand s 1 a = .ok v →
    execWith .fault (.arb a) s =
      (if wordMin ≤ s.rb.toInt + v.toInt ∧ s.rb.toInt + v.toInt ≤ wordMax then exec (.arb a) s
        else .next (s.withFault (.arithOverflow (s.rb.toInt + v.toInt)) (some s.opcodeWord)))) ∧
  (∀ (s : State) (i : Instr) (c : FaultCause), firstOperandFault s 1 (operandRoles i) = some c →
    execWith .fault i s = exec i s) ∧
  ∀ (s : State) (i : Instr), (∀ a b o, i ≠ .add a b o) → (∀ a b o, i ≠ .mul a b o) → (∀ a, i ≠ .arb a) →
    execWith .fault i s = exec i s

/-- D4, R87: a run under `OVERFLOW` = `fault` that does not end in an overflow fault is the run under `wrap`, with
the same fuel (log 14). -/
def Obligations.OverflowFaultModelRefinesWrap : Prop :=
  ∀ (p : Params) (fuel : Nat) (values : List Word) (s t : State) (r : ResumeResult),
    resume { p with overflow := .fault } fuel values s = some (r, t) →
    (∀ rec, r = .fatal rec → rec.cause.code ≠ 6) →
    resume { p with overflow := .wrap } fuel values s = some (r, t)
end

