-- ==== Sys2Proof/Laws/Decode.lean ====
section
/-! SUPPORT. What the decoder accepts and rejects, said once (30_encoding.md R52). -/

namespace Sys2Proof

open Sys2Proof.Machine

/-! ## Digits, opcodes and modes -/

theorem opcodeOf_number (op : Opcode) : opcodeOf op.number = some op := by cases op <;> rfl

theorem opcodeOf_eq_some {n : Nat} {op : Opcode} (h : opcodeOf n = some op) : n = op.number := by
  unfold opcodeOf at h
  split at h <;> cases h <;> rfl

theorem modeOf_digit (m : Mode) : modeOf m.digit = some m := by cases m <;> rfl

theorem modeOf_eq_some {n : Nat} {m : Mode} (h : modeOf n = some m) : n = m.digit := by
  unfold modeOf at h
  split at h <;> cases h <;> rfl

theorem modeOf_eq_none {n : Nat} : modeOf n = none ↔ 2 < n := by
  match n with
  | 0 | 1 | 2 => decide
  | n + 3 => exact ⟨fun _ => by omega, fun _ => rfl⟩

@[simp] theorem position_digit : Mode.position.digit = 0 := rfl

theorem operands_le (op : Opcode) : op.operands ≤ 3 := by cases op <;> decide

/-- A stray digit is a digit of weight 10^(N+2) or more (R61). -/
theorem hasStrayDigit_iff {N n : Nat} (hN : N ≤ 3) : hasStrayDigit N n = true ↔ n / 10 ^ (N + 2) ≠ 0 := by
  have : N = 0 ∨ N = 1 ∨ N = 2 ∨ N = 3 := by omega
  rcases this with rfl | rfl | rfl | rfl <;>
    simp [hasStrayDigit, modeDigit, digit] <;> omega

/-! ## One mode digit -/

theorem decodeMode_ok {N n k : Nat} {m : Mode} (h : decodeMode N n k = .ok m) :
    (k ≤ N → modeDigit k n = m.digit) ∧ (¬ k ≤ N → m = .position) := by
  unfold decodeMode at h
  split at h
  · next hk =>
    split at h
    · next hm => cases h; exact ⟨fun _ => modeOf_eq_some hm, fun h => absurd hk h⟩
    · cases h
  · next hk => cases h; exact ⟨fun h => absurd h hk, fun _ => rfl⟩

theorem decodeMode_of_le {N n k : Nat} (hk : k ≤ N) (h : modeDigit k n ≤ 2) :
    ∃ m, decodeMode N n k = .ok m ∧ modeDigit k n = m.digit := by
  unfold decodeMode
  rw [if_pos hk]
  rcases hm : modeOf (modeDigit k n) with _ | m
  · have := modeOf_eq_none.1 hm; omega
  · exact ⟨m, rfl, modeOf_eq_some hm⟩

theorem decodeMode_beyond {N n k : Nat} (hk : ¬ k ≤ N) : decodeMode N n k = .ok .position := by
  simp [decodeMode, hk]

theorem decodeMode_bad {N n k : Nat} (hk : k ≤ N) (h : 2 < modeDigit k n) :
    decodeMode N n k = .error (.badModeDigit k (modeDigit k n)) := by
  unfold decodeMode
  rw [if_pos hk, modeOf_eq_none.2 h]

/-! ## The whole word -/

/-- The checks of `decodeWord` up to the modes: which of the first three answers it gives. -/
theorem decodeWord_negative (stray : StrayDigits) {w : Word} (h : w.toInt < 0) :
    decodeWord stray w = .error (.decodeError w) := by
  simp [decodeWord, h]

theorem decodeWord_unknown (stray : StrayDigits) {w : Word} (h : 0 ≤ w.toInt)
    (ho : opcodeOf (w.toInt.toNat % 100) = none) :
    decodeWord stray w = .error (.unknownOpcode (w.toInt.toNat % 100)) := by
  simp [decodeWord, not_lt.2 h, ho]

theorem decodeWord_stray {w : Word} {op : Opcode} (h : 0 ≤ w.toInt)
    (ho : opcodeOf (w.toInt.toNat % 100) = some op) (hs : w.toInt.toNat / 10 ^ (op.operands + 2) ≠ 0) :
    decodeWord .fault w = .error (.decodeError w) := by
  simp only [decodeWord, not_lt.2 h, ho, hasStrayDigit_iff (operands_le op)]
  simp [hs]

/-- Past those checks the answer is that of the mode checks. -/
theorem decodeWord_modes {stray : StrayDigits} {w : Word} {op : Opcode} (h : 0 ≤ w.toInt)
    (ho : opcodeOf (w.toInt.toNat % 100) = some op)
    (hs : stray = .fault → w.toInt.toNat / 10 ^ (op.operands + 2) = 0) :
    decodeWord stray w = decodeModes op w.toInt.toNat := by
  have : ¬ (stray = .fault ∧ hasStrayDigit op.operands w.toInt.toNat = true) := by
    rw [hasStrayDigit_iff (operands_le op)]; tauto
  simp only [decodeWord, not_lt.2 h, ho, this, if_false]

/-- What the mode checks accept. -/
theorem decodeModes_ok {op : Opcode} {n : Nat} {h : OpcodeWord} (hd : decodeModes op n = .ok h) :
    h.opcode = op ∧ decodeMode op.operands n 1 = .ok h.mode1 ∧ decodeMode op.operands n 2 = .ok h.mode2 ∧
      decodeMode op.operands n 3 = .ok h.mode3 ∧
      ∀ d, op.destination = some d → (h.mode d).legalDestination = true := by
  unfold decodeModes at hd
  rcases h1 : decodeMode op.operands n 1 with c | m1 <;> rw [h1] at hd
  · cases hd
  rcases h2 : decodeMode op.operands n 2 with c | m2 <;> rw [h2] at hd
  · cases hd
  rcases h3 : decodeMode op.operands n 3 with c | m3 <;> rw [h3] at hd
  · cases hd
  simp only [bind, Except.bind] at hd
  split at hd
  · next d hdest =>
    split at hd
    · next hl => cases hd; exact ⟨rfl, rfl, rfl, rfl, fun d' h' => by rw [hdest] at h'; cases h'; exact hl⟩
    · cases hd
  · next hdest => cases hd; exact ⟨rfl, rfl, rfl, rfl, fun d' h' => by rw [hdest] at h'; cases h'⟩

/-- What the decoder accepts: a non-negative word whose two low digits are the opcode and, under
`STRAY_DIGITS` = `fault`, no digit beyond the last operand's mode; and it is accepted by the mode checks. -/
theorem decodeWord_ok {stray : StrayDigits} {w : Word} {h : OpcodeWord} (hd : decodeWord stray w = .ok h) :
    0 ≤ w.toInt ∧ w.toInt.toNat % 100 = h.opcode.number ∧
      (stray = .fault → w.toInt.toNat / 10 ^ (h.opcode.operands + 2) = 0) ∧
      decodeModes h.opcode w.toInt.toNat = .ok h := by
  by_cases hw : w.toInt < 0
  · rw [decodeWord_negative stray hw] at hd; cases hd
  have hw := not_lt.1 hw
  rcases ho : opcodeOf (w.toInt.toNat % 100) with _ | op
  · rw [decodeWord_unknown stray hw ho] at hd; cases hd
  by_cases hs : stray = .fault → w.toInt.toNat / 10 ^ (op.operands + 2) = 0
  · rw [decodeWord_modes hw ho hs] at hd
    have hop := (decodeModes_ok hd).1
    rw [hop]
    exact ⟨hw, opcodeOf_eq_some ho, hs, hd⟩
  · rw [Classical.not_imp] at hs
    obtain ⟨rfl, hs⟩ := hs
    rw [decodeWord_stray hw ho hs] at hd; cases hd

theorem decodeMode_error {N n k : Nat} {c : FaultCause} (h : decodeMode N n k = .error c) :
    k ≤ N ∧ 2 < modeDigit k n ∧ c = .badModeDigit k (modeDigit k n) := by
  unfold decodeMode at h
  split at h
  · next hk =>
    split at h
    · cases h
    · next hm => cases h; exact ⟨hk, modeOf_eq_none.1 hm, rfl⟩
  · cases h

/-- Why the mode checks reject: the lowest operand with a mode digit above 2, or an immediate destination. -/
theorem decodeModes_error {op : Opcode} {n : Nat} {c : FaultCause} (h : decodeModes op n = .error c) :
    (∃ k, 1 ≤ k ∧ k ≤ op.operands ∧ 2 < modeDigit k n ∧ c = .badModeDigit k (modeDigit k n)) ∨
      ∃ d, op.destination = some d ∧ modeDigit d n = 1 ∧ c = .illegalWriteMode d := by
  unfold decodeModes at h
  rcases h1 : decodeMode op.operands n 1 with e | m1 <;> rw [h1] at h
  · cases h; exact .inl ⟨1, le_rfl, decodeMode_error h1⟩
  rcases h2 : decodeMode op.operands n 2 with e | m2 <;> rw [h2] at h
  · cases h; exact .inl ⟨2, by omega, decodeMode_error h2⟩
  rcases h3 : decodeMode op.operands n 3 with e | m3 <;> rw [h3] at h
  · cases h; exact .inl ⟨3, by omega, decodeMode_error h3⟩
  refine .inr ?_
  simp only [bind, Except.bind] at h
  have h1 := (decodeMode_ok h1).1
  have h3 := (decodeMode_ok h3).1
  cases op <;> simp only [Opcode.destination, OpcodeWord.mode] at h <;>
    first
    | cases h
    | (split at h
       · cases h
       · next hl =>
         cases h
         refine ⟨_, rfl, ?_, rfl⟩
         first | rw [h3 (by decide)] | rw [h1 (by decide)]
         first | (cases m3 <;> first | rfl | exact absurd rfl hl) | (cases m1 <;> first | rfl | exact absurd rfl hl))

/-- Why the decoder rejects a word, in the order of R52. -/
theorem decodeWord_error {stray : StrayDigits} {w : Word} {c : FaultCause} (hd : decodeWord stray w = .error c) :
    w.toInt < 0 ∧ c = .decodeError w ∨
    0 ≤ w.toInt ∧ opcodeOf (w.toInt.toNat % 100) = none ∧ c = .unknownOpcode (w.toInt.toNat % 100) ∨
    ∃ op, 0 ≤ w.toInt ∧ opcodeOf (w.toInt.toNat % 100) = some op ∧
      (stray = .fault ∧ w.toInt.toNat / 10 ^ (op.operands + 2) ≠ 0 ∧ c = .decodeError w ∨
        decodeModes op w.toInt.toNat = .error c) := by
  by_cases hw : w.toInt < 0
  · rw [decodeWord_negative stray hw] at hd; cases hd; exact .inl ⟨hw, rfl⟩
  have hw := not_lt.1 hw
  refine .inr ?_
  rcases ho : opcodeOf (w.toInt.toNat % 100) with _ | op
  · rw [decodeWord_unknown stray hw ho] at hd; cases hd; exact .inl ⟨hw, rfl, rfl⟩
  refine .inr ⟨op, hw, rfl, ?_⟩
  by_cases hs : stray = .fault → w.toInt.toNat / 10 ^ (op.operands + 2) = 0
  · rw [decodeWord_modes hw ho hs] at hd; exact .inr hd
  · rw [Classical.not_imp] at hs
    obtain ⟨rfl, hs⟩ := hs
    rw [decodeWord_stray hw ho hs] at hd; cases hd; exact .inl ⟨rfl, hs, rfl⟩

/-- The decoder raises no address fault and no overflow. -/
theorem decodeWord_error_code {stray : StrayDigits} {w : Word} {c : FaultCause}
    (hd : decodeWord stray w = .error c) : c.code ≤ 4 := by
  rcases decodeWord_error hd with ⟨-, rfl⟩ | ⟨-, -, rfl⟩ | ⟨op, -, -, ⟨-, -, rfl⟩ | hm⟩
  · simp [FaultCause.code]
  · simp [FaultCause.code]
  · simp [FaultCause.code]
  · rcases decodeModes_error hm with ⟨k, -, -, -, rfl⟩ | ⟨d, -, -, rfl⟩ <;> simp [FaultCause.code]

/-- A word the decoder accepts is the number its opcode and modes make (R51, R63). -/
theorem number_of_decodeWord {w : Word} {h : OpcodeWord} (hd : decodeWord .fault w = .ok h) :
    w.toInt.toNat =
      100 * (h.mode1.digit + 10 * (h.mode2.digit + 10 * h.mode3.digit)) + h.opcode.number := by
  obtain ⟨-, hop, hs, hm⟩ := decodeWord_ok hd
  obtain ⟨-, h1, h2, h3, -⟩ := decodeModes_ok hm
  have hs := hs rfl
  have h1 := decodeMode_ok h1
  have h2 := decodeMode_ok h2
  have h3 := decodeMode_ok h3
  obtain ⟨op, m1, m2, m3⟩ := h
  cases op <;> simp [Opcode.operands, Opcode.number, modeDigit, digit] at hop hs h1 h2 h3 ⊢ <;>
    simp [*] at * <;> omega

/-- The opcode and modes of an instruction, absent modes at `position`. -/
def headerOf (i : Instr) : OpcodeWord :=
  let mode (k : Nat) : Mode := (i.operands[k]?.map (·.mode)).getD .position
  ⟨i.opcode, mode 0, mode 1, mode 2⟩

/-- The number of a decoded opcode word (R63). -/
def OpcodeWord.number (h : OpcodeWord) : Nat :=
  100 * (h.mode1.digit + 10 * (h.mode2.digit + 10 * h.mode3.digit)) + h.opcode.number

theorem opcodeNumber_eq (i : Instr) : i.opcodeNumber = (headerOf i).number := by
  cases i <;> simp [Instr.opcodeNumber, modeDigits, headerOf, OpcodeWord.number, Instr.operands, Instr.opcode]

theorem headerOf_instr (i : Instr) (p1 p2 p3 : Word)
    (hp : ∀ (k : Nat) (o : Operand), i.operands[k]? = some o → [p1, p2, p3][k]? = some o.word) :
    (headerOf i).instr p1 p2 p3 = i := by
  have h0 := hp 0
  have h1 := hp 1
  have h2 := hp 2
  cases i <;> simp [Instr.operands] at h0 h1 h2 <;>
    simp [headerOf, Instr.operands, Instr.opcode, OpcodeWord.instr, *]

/-- Modes beyond the last operand stand at `position`, and the destination's mode is legal. -/
def OpcodeWord.legal (h : OpcodeWord) : Bool :=
  (decide (1 ≤ h.opcode.operands) || h.mode1 == .position) &&
    (decide (2 ≤ h.opcode.operands) || h.mode2 == .position) &&
    (decide (3 ≤ h.opcode.operands) || h.mode3 == .position) &&
    (h.opcode.destination.map fun d => (h.mode d).legalDestination).getD true

theorem headerOf_legal {i : Instr} (h : i.wellFormed = true) : (headerOf i).legal = true := by
  cases i <;> simp_all [headerOf, OpcodeWord.legal, Instr.operands, Instr.opcode, Opcode.operands,
    Opcode.destination, OpcodeWord.mode, Instr.wellFormed]

/-- The number of a legal header decodes to it, whatever the policy on stray digits. -/
theorem decodeWord_number (stray : StrayDigits) (h : OpcodeWord) (hl : h.legal = true) :
    decodeWord stray (BitVec.ofNat 64 h.number) = .ok h := by
  obtain ⟨op, m1, m2, m3⟩ := h
  cases op <;> cases m1 <;> cases m2 <;> cases m3 <;> first
    | cases hl; done
    | cases stray <;> decide

/-- The opcode word of a well-formed instruction decodes to its opcode and modes, whatever the policy on
stray digits. -/
theorem decodeWord_opcodeNumber (stray : StrayDigits) {i : Instr} (h : i.wellFormed = true) :
    decodeWord stray (BitVec.ofNat 64 i.opcodeNumber) = .ok (headerOf i) := by
  rw [opcodeNumber_eq]
  exact decodeWord_number stray _ (headerOf_legal h)

/-- A decoded opcode word is legal, so its instructions are well formed. -/
theorem legal_of_decodeWord {stray : StrayDigits} {w : Word} {h : OpcodeWord}
    (hd : decodeWord stray w = .ok h) : h.legal = true := by
  obtain ⟨-, h1, h2, h3, hdest⟩ := decodeModes_ok (decodeWord_ok hd).2.2.2
  have h1 := (decodeMode_ok h1).2
  have h2 := (decodeMode_ok h2).2
  have h3 := (decodeMode_ok h3).2
  obtain ⟨op, m1, m2, m3⟩ := h
  cases op <;> simp_all [OpcodeWord.legal, Opcode.operands, Opcode.destination, OpcodeWord.mode]

theorem instr_wellFormed {h : OpcodeWord} (hl : h.legal = true) (p1 p2 p3 : Word) :
    (h.instr p1 p2 p3).wellFormed = true := by
  obtain ⟨op, m1, m2, m3⟩ := h
  cases op <;> simp_all [OpcodeWord.legal, Opcode.operands, Opcode.destination, OpcodeWord.mode,
    OpcodeWord.instr, Instr.wellFormed]

theorem headerOf_instr_eq {h : OpcodeWord} (hl : h.legal = true) (p1 p2 p3 : Word) :
    headerOf (h.instr p1 p2 p3) = h := by
  obtain ⟨op, m1, m2, m3⟩ := h
  cases op <;> simp_all [OpcodeWord.legal, Opcode.operands, Opcode.destination, OpcodeWord.mode,
    OpcodeWord.instr, headerOf, Instr.operands, Instr.opcode]

end Sys2Proof
end

