-- ==== Sys2Proof/Laws/Memory.lean ====
section
/-! SUPPORT. What reading and writing the memory do, and that every operation keeps the canonical form. -/

namespace Sys2Proof.Machine

/-! ## Reads -/

@[simp] theorem read_nil (a : Nat) : Memory.read [] a = 0 := rfl

theorem read_cons (b : Nat) (v : Word) (m : Memory) (a : Nat) :
    Memory.read ((b, v) :: m) a = if b = a then v else Memory.read m a := rfl

/-- A cell whose address is not listed reads 0. -/
theorem read_eq_zero {m : Memory} {a : Nat} (h : ∀ c ∈ m, c.1 ≠ a) : m.read a = 0 := by
  induction m with
  | nil => rfl
  | cons c m ih =>
    obtain ⟨b, v⟩ := c
    have hb : b ≠ a := h (b, v) (by simp)
    rw [read_cons, if_neg hb]
    exact ih fun c hc => h c (by simp [hc])

/-- In canonical form a listed cell is what is read there. -/
theorem read_of_mem {m : Memory} (hm : m.wf) {a : Nat} {v : Word} (h : (a, v) ∈ m) : m.read a = v := by
  induction m with
  | nil => simp at h
  | cons c m ih =>
    obtain ⟨b, u⟩ := c
    obtain ⟨hp, hz⟩ := hm
    rw [List.pairwise_cons] at hp
    rcases List.mem_cons.1 h with h | h
    · cases h
      simp [read_cons]
    · have hb : b < a := hp.1 _ h
      rw [read_cons, if_neg (by omega)]
      exact ih ⟨hp.2, fun c hc => hz c (by simp [hc])⟩ h

theorem read_filter (m : Memory) (a b : Nat) :
    Memory.read (m.filter fun c => c.1 != a) b = if b = a then 0 else m.read b := by
  induction m with
  | nil => simp
  | cons c m ih =>
    obtain ⟨k, u⟩ := c
    by_cases hk : k = a
    · rw [List.filter_cons_of_neg (by simp [hk]), ih, read_cons]
      grind
    · rw [List.filter_cons_of_pos (by simp [hk]), read_cons, ih, read_cons]
      grind

theorem read_insert (m : Memory) (a b : Nat) (v : Word) :
    (Memory.insert m a v).read b = if b = a then v else m.read b := by
  induction m with
  | nil => simp only [Memory.insert, read_cons, read_nil, eq_comm]
  | cons c m ih =>
    obtain ⟨k, u⟩ := c
    simp only [Memory.insert]
    split
    · rw [read_cons, ih, read_cons]
      grind
    · split <;> simp only [read_cons] <;> grind

/-- A write changes the cell it names and no other (20_memory.md R32). -/
theorem read_write (m : Memory) (a b : Nat) (v : Word) :
    (m.write a v).read b = if b = a then v else m.read b := by
  unfold Memory.write
  split
  · next h => rw [read_filter, h]
  · exact read_insert m a b v

@[simp] theorem read_write_same (m : Memory) (a : Nat) (v : Word) : (m.write a v).read a = v := by
  simp [read_write]

theorem read_write_other (m : Memory) {a b : Nat} (v : Word) (h : b ≠ a) :
    (m.write a v).read b = m.read b := by
  simp [read_write, h]

/-! ## The canonical form -/

theorem wf_nil : Memory.wf [] := ⟨List.Pairwise.nil, by simp⟩

theorem mem_insert {m : Memory} {a : Nat} {v : Word} {c : Nat × Word} (h : c ∈ Memory.insert m a v) :
    c = (a, v) ∨ c ∈ m := by
  induction m with
  | nil => simpa [Memory.insert] using h
  | cons e m ih =>
    obtain ⟨k, u⟩ := e
    simp only [Memory.insert] at h
    split at h
    · rcases List.mem_cons.1 h with h | h
      · exact .inr (by simp [h])
      · exact (ih h).imp_right fun h => by simp [h]
    · split at h
      · rcases List.mem_cons.1 h with h | h
        · exact .inl h
        · exact .inr (by simp [h])
      · rcases List.mem_cons.1 h with h | h
        · exact .inl h
        · exact .inr h

theorem insert_pairwise {m : Memory} {a : Nat} {v : Word} (h : m.Pairwise fun x y => x.1 < y.1) :
    (Memory.insert m a v).Pairwise fun x y => x.1 < y.1 := by
  induction m with
  | nil => simp [Memory.insert]
  | cons e m ih =>
    obtain ⟨k, u⟩ := e
    rw [List.pairwise_cons] at h
    simp only [Memory.insert]
    split
    · next hk =>
      refine List.pairwise_cons.2 ⟨fun c hc => ?_, ih h.2⟩
      rcases mem_insert hc with rfl | hc
      · exact hk
      · exact h.1 c hc
    · split
      · next hk => exact List.pairwise_cons.2 ⟨fun c hc => hk ▸ h.1 c hc, h.2⟩
      · next h1 h2 =>
        refine List.pairwise_cons.2 ⟨fun c hc => ?_, List.pairwise_cons.2 h⟩
        rcases List.mem_cons.1 hc with rfl | hc
        · exact lt_of_le_of_ne (not_lt.1 h1) (Ne.symm h2)
        · exact lt_of_lt_of_le' (h.1 c hc) (not_lt.1 h1)

/-- A write keeps the canonical form. -/
theorem write_wf {m : Memory} (a : Nat) (v : Word) (h : m.wf) : (m.write a v).wf := by
  unfold Memory.write
  split
  · exact ⟨h.1.filter _, fun c hc => h.2 c (List.mem_of_mem_filter hc)⟩
  · next hv =>
    refine ⟨insert_pairwise h.1, fun c hc => ?_⟩
    rcases mem_insert hc with rfl | hc
    · exact hv
    · exact h.2 c hc

/-- Equal memories are equal data: two memories in canonical form that read the same everywhere are equal. -/
theorem eq_of_read_eq {m m' : Memory} (hm : m.wf) (hm' : m'.wf) (h : ∀ a, m.read a = m'.read a) : m = m' := by
  induction m generalizing m' with
  | nil =>
    cases m' with
    | nil => rfl
    | cons c m' =>
      have := h c.1
      rw [read_of_mem (a := c.1) (v := c.2) hm' (by simp), read_nil] at this
      exact absurd this.symm (hm'.2 c (by simp))
  | cons c m ih =>
    cases m' with
    | nil =>
      have := h c.1
      rw [read_of_mem (a := c.1) (v := c.2) hm (by simp), read_nil] at this
      exact absurd this (hm.2 c (by simp))
    | cons c' m' =>
      obtain ⟨a, v⟩ := c
      obtain ⟨a', v'⟩ := c'
      have low : ∀ {b : Nat} {u : Word} {n : Memory}, ((b, u) :: n).Pairwise (fun x y => x.1 < y.1) →
          ∀ {k}, k < b → Memory.read ((b, u) :: n) k = 0 := by
        intro b u n hp k hk
        refine read_eq_zero fun c hc => ?_
        rcases List.mem_cons.1 hc with rfl | hc
        · exact Nat.ne_of_gt hk
        · have := (List.pairwise_cons.1 hp).1 c hc
          exact Nat.ne_of_gt (Nat.lt_trans hk this)
      have haa : a = a' := by
        rcases Nat.lt_trichotomy a a' with hlt | heq | hgt
        · have := h a
          rw [low hm'.1 hlt, read_cons, if_pos rfl] at this
          exact absurd this (hm.2 (a, v) (by simp))
        · exact heq
        · have := h a'
          rw [low hm.1 hgt, read_cons, if_pos rfl] at this
          exact absurd this.symm (hm'.2 (a', v') (by simp))
      subst haa
      have hv : v = v' := by simpa [read_cons] using h a
      subst hv
      have tail : ∀ {n : Memory}, Memory.wf ((a, v) :: n) → n.wf ∧ n.read a = 0 := by
        intro n hn
        obtain ⟨hp, hz⟩ := hn
        rw [List.pairwise_cons] at hp
        exact ⟨⟨hp.2, fun c hc => hz c (by simp [hc])⟩, read_eq_zero fun c hc => Nat.ne_of_gt (hp.1 c hc)⟩
      congr 1
      refine ih (tail hm).1 (tail hm').1 fun b => ?_
      by_cases hb : a = b
      · subst hb; rw [(tail hm).2, (tail hm').2]
      · simpa [read_cons, hb] using h b

/-! ## The memory of a program -/

theorem mem_ofWords {a : Nat} {ws : List Word} {c : Nat × Word} (h : c ∈ Memory.ofWords a ws) :
    a ≤ c.1 ∧ c.2 ≠ 0 := by
  induction ws generalizing a with
  | nil => simp [Memory.ofWords] at h
  | cons w ws ih =>
    simp only [Memory.ofWords] at h
    split at h
    · exact ⟨by have := (ih h).1; omega, (ih h).2⟩
    · next hw =>
      rcases List.mem_cons.1 h with rfl | h
      · exact ⟨le_rfl, hw⟩
      · exact ⟨by have := (ih h).1; omega, (ih h).2⟩

/-- The memory of a program is in canonical form. -/
theorem ofWords_wf (a : Nat) (ws : List Word) : (Memory.ofWords a ws).wf := by
  refine ⟨?_, fun c hc => (mem_ofWords hc).2⟩
  induction ws generalizing a with
  | nil => simp [Memory.ofWords]
  | cons w ws ih =>
    simp only [Memory.ofWords]
    split
    · exact ih _
    · exact List.pairwise_cons.2 ⟨fun c hc => (mem_ofWords hc).1, ih _⟩

/-- What the memory of a program reads: the program's words from `a` on, 0 elsewhere. -/
theorem read_ofWords (a b : Nat) (ws : List Word) :
    (Memory.ofWords a ws).read b = if a ≤ b then (ws[b - a]?).getD 0 else 0 := by
  induction ws generalizing a with
  | nil => simp [Memory.ofWords]
  | cons w ws ih =>
    have tail : b ≠ a → (if a + 1 ≤ b then (ws[b - (a + 1)]?).getD 0 else 0)
        = if a ≤ b then ((w :: ws)[b - a]?).getD 0 else 0 := by
      intro h
      by_cases hab : a ≤ b
      · obtain ⟨k, rfl⟩ : ∃ k, b = a + 1 + k := ⟨b - (a + 1), by omega⟩
        simp [show a + 1 + k - a = k + 1 by omega, show a ≤ a + 1 + k by omega]
      · simp [hab, show ¬ a + 1 ≤ b by omega]
    simp only [Memory.ofWords]
    split
    · next hw =>
      rw [ih]
      by_cases h : b = a
      · subst h; simp [hw]
      · exact tail h
    · rw [read_cons, ih]
      by_cases h : b = a
      · subst h; simp
      · rw [if_neg (Ne.symm h)]; exact tail h

end Sys2Proof.Machine
end

