-- ==== Sys2Proof/Laws/State.lean ====
section
/-! SUPPORT. One lemma for each field of each update of the state, true by definition. -/

namespace Sys2Proof.Machine

variable (s : State)

@[simp] theorem State.store_ip (a : Nat) (v : Word) : (s.store a v).ip = s.ip := rfl
@[simp] theorem State.store_rb (a : Nat) (v : Word) : (s.store a v).rb = s.rb := rfl
@[simp] theorem State.store_mem (a : Nat) (v : Word) : (s.store a v).mem = s.mem.write a v := rfl
@[simp] theorem State.store_hwm (a : Nat) (v : Word) : (s.store a v).hwm = max s.hwm (a + 1) := rfl
@[simp] theorem State.store_inq (a : Nat) (v : Word) : (s.store a v).inq = s.inq := rfl
@[simp] theorem State.store_outq (a : Nat) (v : Word) : (s.store a v).outq = s.outq := rfl
@[simp] theorem State.store_halted (a : Nat) (v : Word) : (s.store a v).halted = s.halted := rfl
@[simp] theorem State.store_haltImplicit (a : Nat) (v : Word) : (s.store a v).haltImplicit = s.haltImplicit := rfl
@[simp] theorem State.store_fault (a : Nat) (v : Word) : (s.store a v).fault = s.fault := rfl

@[simp] theorem State.advance_ip (len : Nat) : (s.advance len).ip = wrap64 (s.ip.toInt + len) := rfl
@[simp] theorem State.advance_rb (len : Nat) : (s.advance len).rb = s.rb := rfl
@[simp] theorem State.advance_mem (len : Nat) : (s.advance len).mem = s.mem := rfl
@[simp] theorem State.advance_hwm (len : Nat) : (s.advance len).hwm = s.hwm := rfl
@[simp] theorem State.advance_inq (len : Nat) : (s.advance len).inq = s.inq := rfl
@[simp] theorem State.advance_outq (len : Nat) : (s.advance len).outq = s.outq := rfl
@[simp] theorem State.advance_halted (len : Nat) : (s.advance len).halted = s.halted := rfl
@[simp] theorem State.advance_haltImplicit (len : Nat) : (s.advance len).haltImplicit = s.haltImplicit := rfl
@[simp] theorem State.advance_fault (len : Nat) : (s.advance len).fault = s.fault := rfl

@[simp] theorem State.raise_ip (c : FaultCause) : (s.raise c).ip = s.ip := rfl
@[simp] theorem State.raise_rb (c : FaultCause) : (s.raise c).rb = s.rb := rfl
@[simp] theorem State.raise_mem (c : FaultCause) : (s.raise c).mem = s.mem := rfl
@[simp] theorem State.raise_hwm (c : FaultCause) : (s.raise c).hwm = s.hwm := rfl
@[simp] theorem State.raise_inq (c : FaultCause) : (s.raise c).inq = s.inq := rfl
@[simp] theorem State.raise_outq (c : FaultCause) : (s.raise c).outq = s.outq := rfl
@[simp] theorem State.raise_halted (c : FaultCause) : (s.raise c).halted = s.halted := rfl
@[simp] theorem State.raise_haltImplicit (c : FaultCause) : (s.raise c).haltImplicit = s.haltImplicit := rfl
@[simp] theorem State.raise_fault (c : FaultCause) : (s.raise c).fault = some { cause := c, ip := s.ip, word := faultWord s c } := rfl

@[simp] theorem State.haltImplicitly_ip : (s.haltImplicitly).ip = s.ip := rfl
@[simp] theorem State.haltImplicitly_rb : (s.haltImplicitly).rb = s.rb := rfl
@[simp] theorem State.haltImplicitly_mem : (s.haltImplicitly).mem = s.mem := rfl
@[simp] theorem State.haltImplicitly_hwm : (s.haltImplicitly).hwm = s.hwm := rfl
@[simp] theorem State.haltImplicitly_inq : (s.haltImplicitly).inq = s.inq := rfl
@[simp] theorem State.haltImplicitly_outq : (s.haltImplicitly).outq = s.outq := rfl
@[simp] theorem State.haltImplicitly_halted : (s.haltImplicitly).halted = true := rfl
@[simp] theorem State.haltImplicitly_haltImplicit : (s.haltImplicitly).haltImplicit = true := rfl
@[simp] theorem State.haltImplicitly_fault : (s.haltImplicitly).fault = s.fault := rfl

@[simp] theorem State.appendInput_ip (values : List Word) : (s.appendInput values).ip = s.ip := rfl
@[simp] theorem State.appendInput_rb (values : List Word) : (s.appendInput values).rb = s.rb := rfl
@[simp] theorem State.appendInput_mem (values : List Word) : (s.appendInput values).mem = s.mem := rfl
@[simp] theorem State.appendInput_hwm (values : List Word) : (s.appendInput values).hwm = s.hwm := rfl
@[simp] theorem State.appendInput_inq (values : List Word) : (s.appendInput values).inq = s.inq ++ values := rfl
@[simp] theorem State.appendInput_outq (values : List Word) : (s.appendInput values).outq = s.outq := rfl
@[simp] theorem State.appendInput_halted (values : List Word) : (s.appendInput values).halted = s.halted := rfl
@[simp] theorem State.appendInput_haltImplicit (values : List Word) : (s.appendInput values).haltImplicit = s.haltImplicit := rfl
@[simp] theorem State.appendInput_fault (values : List Word) : (s.appendInput values).fault = s.fault := rfl

@[simp] theorem clearOutput_ip : (clearOutput s).ip = s.ip := rfl
@[simp] theorem clearOutput_rb : (clearOutput s).rb = s.rb := rfl
@[simp] theorem clearOutput_mem : (clearOutput s).mem = s.mem := rfl
@[simp] theorem clearOutput_hwm : (clearOutput s).hwm = s.hwm := rfl
@[simp] theorem clearOutput_inq : (clearOutput s).inq = s.inq := rfl
@[simp] theorem clearOutput_outq : (clearOutput s).outq = [] := rfl
@[simp] theorem clearOutput_halted : (clearOutput s).halted = s.halted := rfl
@[simp] theorem clearOutput_haltImplicit : (clearOutput s).haltImplicit = s.haltImplicit := rfl
@[simp] theorem clearOutput_fault : (clearOutput s).fault = s.fault := rfl

/-! ## Being live -/

theorem live_iff : s.live = true ↔ s.halted = false ∧ s.fault = none := by
  simp [State.live]

@[simp] theorem live_appendInput (values : List Word) : (s.appendInput values).live = s.live := rfl

@[simp] theorem appendInput_nil : s.appendInput [] = s := by simp [State.appendInput]

theorem appendInput_appendInput (xs ys : List Word) :
    (s.appendInput xs).appendInput ys = s.appendInput (xs ++ ys) := by
  simp [State.appendInput]

/-- A next state that differs from a state only in `FAULT` is that state with a new `FAULT`. -/
theorem raise_eq (c : FaultCause) :
    s.raise c = { s with fault := some { cause := c, ip := s.ip, word := faultWord s c } } := rfl

end Sys2Proof.Machine
end

