-- ==== Sys2Proof/Laws/Operands.lean ====
section
/-! SUPPORT. What the range check, the memory primitives and operand resolution answer. -/

namespace Sys2Proof.Machine

variable {s : State} {kind : AccessKind} {addr : Int} {a k : Nat} {o : Operand} {c : FaultCause} {v : Word}

/-! ## The range check and the primitives -/

theorem checkAddr_ok_iff :
    checkAddr kind addr = .ok a ↔ 0 ≤ addr ∧ addr ≤ Config.addrMax ∧ a = addr.toNat := by
  unfold checkAddr
  split
  · simp only [reduceCtorEq, false_iff]; omega
  · simp only [Except.ok.injEq]; omega

theorem checkAddr_error_iff :
    checkAddr kind addr = .error c ↔
      ¬ (0 ≤ addr ∧ addr ≤ Config.addrMax) ∧ c = .addressFault kind addr := by
  unfold checkAddr
  split
  · simp only [Except.error.injEq, eq_comm (a := c)]
    constructor
    · intro h; exact ⟨by omega, h⟩
    · exact fun h => h.2
  · simp only [reduceCtorEq, false_iff]; omega

theorem checkAddr_le (h : checkAddr kind addr = .ok a) : a ≤ Config.addrMax := by
  have := checkAddr_ok_iff.1 h; omega

theorem checkAddr_natCast (h : a ≤ Config.addrMax) : checkAddr kind a = .ok a :=
  checkAddr_ok_iff.2 ⟨by omega, by omega, by omega⟩

theorem memRead_eq : memRead s kind addr = (checkAddr kind addr).map s.mem.read := by
  unfold memRead; cases checkAddr kind addr <;> rfl

theorem memRead_ok_iff :
    memRead s kind addr = .ok v ↔ 0 ≤ addr ∧ addr ≤ Config.addrMax ∧ s.mem.read addr.toNat = v := by
  rw [memRead_eq]
  rcases h : checkAddr kind addr with e | a
  · have := checkAddr_error_iff.1 h
    simp only [Except.map, reduceCtorEq, false_iff]; tauto
  · obtain ⟨h1, h2, rfl⟩ := checkAddr_ok_iff.1 h
    simp [Except.map, h1, h2]

theorem memRead_error_iff :
    memRead s kind addr = .error c ↔
      ¬ (0 ≤ addr ∧ addr ≤ Config.addrMax) ∧ c = .addressFault kind addr := by
  rw [memRead_eq, ← checkAddr_error_iff]
  cases checkAddr kind addr <;> simp [Except.map]

/-- A MemWrite whose address is in range never raises (20_memory.md R32). -/
theorem memWrite_of_le (h : a ≤ Config.addrMax) : memWrite s k a v = .ok (s.store a v) := by
  unfold memWrite; rw [checkAddr_natCast h]; rfl

/-- A store changes the cell it names, no other, and lets `HWM` cover it (20_memory.md R32). -/
theorem store_storedWord (s : State) (d : Nat) (v : Word) : StoredWord s (s.store d v) d v :=
  ⟨by simp, fun a h => by simp [read_write_other _ _ h], rfl⟩

/-! ## Operands -/

theorem writeAddress_le {d : Nat} (h : writeAddress s k o = .ok d) : d ≤ Config.addrMax := by
  unfold writeAddress at h
  split at h
  · exact checkAddr_le h
  · cases h
  · exact checkAddr_le h

theorem operandFault_source :
    operandFault s k .source o = none ↔ ∃ v, readOperand s k o = .ok v := by
  unfold operandFault readOperand
  rcases o with ⟨_ | _ | _, w⟩ <;> simp [memRead_ok_iff]

theorem operandFault_source_some :
    operandFault s k .source o = some c ↔ readOperand s k o = .error c := by
  unfold operandFault readOperand
  rcases o with ⟨_ | _ | _, w⟩ <;> simp [memRead_error_iff, eq_comm (a := c)]

theorem operandFault_destination :
    operandFault s k .destination o = none ↔ ∃ d, writeAddress s k o = .ok d := by
  unfold operandFault writeAddress
  rcases o with ⟨_ | _ | _, w⟩ <;> simp [checkAddr_ok_iff]

theorem operandFault_destination_some :
    operandFault s k .destination o = some c ↔ writeAddress s k o = .error c := by
  unfold operandFault writeAddress
  rcases o with ⟨_ | _ | _, w⟩ <;> simp [checkAddr_error_iff, eq_comm (a := c)]

/-- No operand raises a fetch fault, so the record of an operand's fault holds the opcode word. -/
theorem faultWord_of_operandFault {role : Role} (h : operandFault s k role o = some c) :
    faultWord s c = some s.opcodeWord := by
  unfold operandFault at h
  split at h
  · split at h
    · cases h; rfl
    · cases h
  · split at h
    · cases h
    · cases h; rfl

theorem faultWord_of_firstOperandFault {ops : List (Role × Operand)}
    (h : firstOperandFault s k ops = some c) : faultWord s c = some s.opcodeWord := by
  induction ops generalizing k with
  | nil => cases h
  | cons o ops ih =>
    simp only [firstOperandFault] at h
    split at h
    · next h' => cases h; exact faultWord_of_operandFault h'
    · exact ih h

/-- Fault entry in the claims' terms. -/
theorem raise_eq_withFault {w : Option Word} (h : faultWord s c = w) : s.raise c = s.withFault c w := by
  subst h; rfl

/-! ## The end of an instruction -/

@[simp] theorem finish_ok {t : State} : finish s (.ok t) = .next t := rfl

@[simp] theorem finish_error : finish s (.error c) = .next (s.raise c) := rfl

@[simp] theorem narrow_wrap (x : Int) : narrow .wrap x = .ok (wrap64 x) := by simp [narrow]

theorem narrow_ok {policy : OverflowPolicy} {x : Int} (h : narrow policy x = .ok v) : v = wrap64 x := by
  unfold narrow at h
  split at h
  · cases h
  · exact (Except.ok.inj h).symm

theorem narrow_error {policy : OverflowPolicy} {x : Int} (h : narrow policy x = .error c) :
    policy = .fault ∧ (x < wordMin ∨ wordMax < x) ∧ c = .arithOverflow x := by
  unfold narrow at h
  split at h
  · next h' => exact ⟨h'.1, h'.2, (Except.error.inj h).symm⟩
  · cases h

/-- With `OVERFLOW` = `fault`: the word of a result in range, the overflow fault otherwise (R147). -/
theorem narrow_fault (x : Int) :
    narrow .fault x =
      if wordMin ≤ x ∧ x ≤ wordMax then .ok (wrap64 x) else .error (.arithOverflow x) := by
  unfold narrow
  by_cases h : wordMin ≤ x ∧ x ≤ wordMax
  · rw [if_pos h, if_neg (by simp; omega)]
  · rw [if_neg h, if_pos ⟨rfl, by omega⟩]

/-- What an operand raises: an immediate destination, or its own address out of range. -/
theorem firstOperandFault_some {ops : List (Role × Operand)} (h : firstOperandFault s k ops = some c) :
    (∃ j, c = .illegalWriteMode j) ∨
      ∃ j ro, k ≤ j ∧ ops[j - k]? = some ro ∧ c = .addressFault (.operand j) (effectiveAddress s ro.2) ∧
        ¬ (0 ≤ effectiveAddress s ro.2 ∧ effectiveAddress s ro.2 ≤ Config.addrMax) := by
  induction ops generalizing k with
  | nil => cases h
  | cons ro ops ih =>
    simp only [firstOperandFault] at h
    split at h
    · next h' =>
      cases h
      unfold operandFault at h'
      split at h'
      · split at h'
        · cases h'; exact .inl ⟨_, rfl⟩
        · cases h'
      · split at h'
        · cases h'
        · next hr => cases h'; exact .inr ⟨k, ro, le_rfl, by simp, rfl, hr⟩
    · rcases ih h with h | ⟨j, ro', h1, h2, h3⟩
      · exact .inl h
      · refine .inr ⟨j, ro', by omega, ?_, h3⟩
        rw [show j - k = j - (k + 1) + 1 by omega, List.getElem?_cons_succ]
        exact h2

end Sys2Proof.Machine
end

