-- ==== Sys2Proof/Laws/Exec.lean ====
section
/-! SUPPORT. Everything an instruction can do, said once: it has its effect, or it enters the first fault of
its operands, or (with `OVERFLOW` = `fault`) the overflow fault. Later proofs cite these and unfold no meaning. -/

namespace Sys2Proof.Machine

variable {policy : OverflowPolicy} {s t : State} {i : Instr}

/-- The effects of the instructions on operands that resolve, one constructor for each effect. -/
inductive Effect (policy : OverflowPolicy) (s : State) : Instr → State → Prop where
  | add {a b o : Operand} {x y r : Word} {d : Nat} (ha : readOperand s 1 a = .ok x)
      (hb : readOperand s 2 b = .ok y) (hd : writeAddress s 3 o = .ok d)
      (hr : narrow policy (x.toInt + y.toInt) = .ok r) :
      Effect policy s (.add a b o) ((s.store d r).advance 4)
  | mul {a b o : Operand} {x y r : Word} {d : Nat} (ha : readOperand s 1 a = .ok x)
      (hb : readOperand s 2 b = .ok y) (hd : writeAddress s 3 o = .ok d)
      (hr : narrow policy (x.toInt * y.toInt) = .ok r) :
      Effect policy s (.mul a b o) ((s.store d r).advance 4)
  | inpSuspend {o : Operand} {d : Nat} (hd : writeAddress s 1 o = .ok d) (hq : s.inq = []) :
      Effect policy s (.inp o) s
  | inpPop {o : Operand} {d : Nat} {v : Word} {rest : List Word} (hd : writeAddress s 1 o = .ok d)
      (hq : s.inq = v :: rest) :
      Effect policy s (.inp o) (({ s with inq := rest }.store d v).advance 2)
  | out {a : Operand} {v : Word} (ha : readOperand s 1 a = .ok v) :
      Effect policy s (.out a) ({ s with outq := s.outq ++ [v] }.advance 2)
  | jtTaken {c d : Operand} {x target : Word} (hc : readOperand s 1 c = .ok x)
      (hd : readOperand s 2 d = .ok target) (hx : x.toInt ≠ 0) :
      Effect policy s (.jt c d) { s with ip := target }
  | jtNot {c d : Operand} {x target : Word} (hc : readOperand s 1 c = .ok x)
      (hd : readOperand s 2 d = .ok target) (hx : x.toInt = 0) :
      Effect policy s (.jt c d) (s.advance 3)
  | jfTaken {c d : Operand} {x target : Word} (hc : readOperand s 1 c = .ok x)
      (hd : readOperand s 2 d = .ok target) (hx : x.toInt = 0) :
      Effect policy s (.jf c d) { s with ip := target }
  | jfNot {c d : Operand} {x target : Word} (hc : readOperand s 1 c = .ok x)
      (hd : readOperand s 2 d = .ok target) (hx : x.toInt ≠ 0) :
      Effect policy s (.jf c d) (s.advance 3)
  | lt {a b o : Operand} {x y : Word} {d : Nat} (ha : readOperand s 1 a = .ok x)
      (hb : readOperand s 2 b = .ok y) (hd : writeAddress s 3 o = .ok d) :
      Effect policy s (.lt a b o) ((s.store d (truthWord (lessThan x y))).advance 4)
  | eq {a b o : Operand} {x y : Word} {d : Nat} (ha : readOperand s 1 a = .ok x)
      (hb : readOperand s 2 b = .ok y) (hd : writeAddress s 3 o = .ok d) :
      Effect policy s (.eq a b o) ((s.store d (truthWord (equalTo x y))).advance 4)
  | arb {a : Operand} {v r : Word} (ha : readOperand s 1 a = .ok v)
      (hr : narrow policy (s.rb.toInt + v.toInt) = .ok r) :
      Effect policy s (.arb a) ({ s with rb := r }.advance 2)
  | hlt : Effect policy s .hlt { s with halted := true }

/-- Why an instruction faults: its first operand fault, or, operands resolved, the overflow test. -/
inductive Raises (policy : OverflowPolicy) (s : State) : Instr → FaultCause → Prop where
  | operand {i : Instr} {c : FaultCause} (h : firstOperandFault s 1 (operandRoles i) = some c) :
      Raises policy s i c
  | addOverflow {a b o : Operand} {x y : Word} {d : Nat} (ha : readOperand s 1 a = .ok x)
      (hb : readOperand s 2 b = .ok y) (hd : writeAddress s 3 o = .ok d) (hp : policy = .fault)
      (hr : x.toInt + y.toInt < wordMin ∨ wordMax < x.toInt + y.toInt) :
      Raises policy s (.add a b o) (.arithOverflow (x.toInt + y.toInt))
  | mulOverflow {a b o : Operand} {x y : Word} {d : Nat} (ha : readOperand s 1 a = .ok x)
      (hb : readOperand s 2 b = .ok y) (hd : writeAddress s 3 o = .ok d) (hp : policy = .fault)
      (hr : x.toInt * y.toInt < wordMin ∨ wordMax < x.toInt * y.toInt) :
      Raises policy s (.mul a b o) (.arithOverflow (x.toInt * y.toInt))
  | arbOverflow {a : Operand} {v : Word} (ha : readOperand s 1 a = .ok v) (hp : policy = .fault)
      (hr : s.rb.toInt + v.toInt < wordMin ∨ wordMax < s.rb.toInt + v.toInt) :
      Raises policy s (.arb a) (.arithOverflow (s.rb.toInt + v.toInt))

/-- An effect whose operands resolve is what `execWith` answers. -/
theorem execWith_of_effect (h : Effect policy s i t) : execWith policy i s = .next t := by
  cases h with
  | add ha hb hd hr =>
    simp [execWith, execAddWith, arithmetic, bind, Except.bind, pure, Except.pure, ha, hb, hd, hr,
      memWrite_of_le (writeAddress_le hd)]
  | mul ha hb hd hr =>
    simp [execWith, execMulWith, arithmetic, bind, Except.bind, pure, Except.pure, ha, hb, hd, hr,
      memWrite_of_le (writeAddress_le hd)]
  | inpSuspend hd hq => simp [execWith, execIn, bind, Except.bind, pure, Except.pure, hd, hq]
  | inpPop hd hq =>
    simp [execWith, execIn, bind, Except.bind, pure, Except.pure, hd, hq,
      memWrite_of_le (writeAddress_le hd)]
  | out ha => simp [execWith, execOut, bind, Except.bind, pure, Except.pure, ha]
  | jtTaken hc hd hx | jtNot hc hd hx =>
    simp [execWith, execJt, jump, isTrue, bind, Except.bind, pure, Except.pure, hc, hd, hx]
  | jfTaken hc hd hx | jfNot hc hd hx =>
    simp [execWith, execJf, jump, isTrue, bind, Except.bind, pure, Except.pure, hc, hd, hx]
  | lt ha hb hd =>
    simp [execWith, execLt, comparison, bind, Except.bind, pure, Except.pure, ha, hb, hd,
      memWrite_of_le (writeAddress_le hd)]
  | eq ha hb hd =>
    simp [execWith, execEq, comparison, bind, Except.bind, pure, Except.pure, ha, hb, hd,
      memWrite_of_le (writeAddress_le hd)]
  | arb ha hr =>
    simp [execWith, execArbWith, bind, Except.bind, pure, Except.pure, ha, hr]
  | hlt => rfl

/-! ## Operands that do not resolve -/

theorem firstOperandFault_two {s : State} {r₁ r₂ : Role} {a b : Operand} {c : FaultCause} :
    firstOperandFault s 1 [(r₁, a), (r₂, b)] = some c ↔
      operandFault s 1 r₁ a = some c ∨
        operandFault s 1 r₁ a = none ∧ operandFault s 2 r₂ b = some c := by
  simp only [firstOperandFault]
  cases operandFault s 1 r₁ a <;> cases operandFault s 2 r₂ b <;> simp

theorem firstOperandFault_three {s : State} {r₁ r₂ r₃ : Role} {a b o : Operand} {c : FaultCause} :
    firstOperandFault s 1 [(r₁, a), (r₂, b), (r₃, o)] = some c ↔
      operandFault s 1 r₁ a = some c ∨
        operandFault s 1 r₁ a = none ∧ (operandFault s 2 r₂ b = some c ∨
          operandFault s 2 r₂ b = none ∧ operandFault s 3 r₃ o = some c) := by
  simp only [firstOperandFault]
  cases operandFault s 1 r₁ a <;> cases operandFault s 2 r₂ b <;> cases operandFault s 3 r₃ o <;> simp

/-- One source operand: it resolves, or the fault it raises is what any body after it answers. -/
theorem source_cases (s : State) (a : Operand) :
    (∃ x, readOperand s 1 a = .ok x) ∨
      ∃ c, firstOperandFault s 1 [(.source, a)] = some c ∧
        ∀ body : Word → Except FaultCause State, (readOperand s 1 a).bind body = .error c := by
  rcases ha : readOperand s 1 a with c | x
  · exact .inr ⟨c, by simp [firstOperandFault, operandFault_source_some.2 ha], fun _ => rfl⟩
  · exact .inl ⟨x, rfl⟩

/-- Two source operands, in ascending order. -/
theorem sources_cases (s : State) (a b : Operand) :
    (∃ x y, readOperand s 1 a = .ok x ∧ readOperand s 2 b = .ok y) ∨
      ∃ c, firstOperandFault s 1 [(.source, a), (.source, b)] = some c ∧
        ∀ body : Word → Word → Except FaultCause State,
          ((readOperand s 1 a).bind fun x => (readOperand s 2 b).bind (body x)) = .error c := by
  rcases ha : readOperand s 1 a with c | x
  · exact .inr ⟨c, firstOperandFault_two.2 (.inl (operandFault_source_some.2 ha)), fun _ => rfl⟩
  rcases hb : readOperand s 2 b with c | y
  · exact .inr ⟨c, firstOperandFault_two.2 (.inr ⟨operandFault_source.2 ⟨_, ha⟩,
      operandFault_source_some.2 hb⟩), fun _ => rfl⟩
  · exact .inl ⟨x, y, rfl, rfl⟩

/-- Two source operands and a destination, in ascending order. -/
theorem sourcesAndTarget_cases (s : State) (a b o : Operand) :
    (∃ x y d, readOperand s 1 a = .ok x ∧ readOperand s 2 b = .ok y ∧ writeAddress s 3 o = .ok d) ∨
      ∃ c, firstOperandFault s 1 [(.source, a), (.source, b), (.destination, o)] = some c ∧
        ∀ body : Word → Word → Nat → Except FaultCause State,
          ((readOperand s 1 a).bind fun x => (readOperand s 2 b).bind fun y =>
            (writeAddress s 3 o).bind (body x y)) = .error c := by
  rcases ha : readOperand s 1 a with c | x
  · exact .inr ⟨c, firstOperandFault_three.2 (.inl (operandFault_source_some.2 ha)), fun _ => rfl⟩
  rcases hb : readOperand s 2 b with c | y
  · exact .inr ⟨c, firstOperandFault_three.2 (.inr ⟨operandFault_source.2 ⟨_, ha⟩,
      .inl (operandFault_source_some.2 hb)⟩), fun _ => rfl⟩
  rcases hd : writeAddress s 3 o with c | d
  · exact .inr ⟨c, firstOperandFault_three.2 (.inr ⟨operandFault_source.2 ⟨_, ha⟩,
      .inr ⟨operandFault_source.2 ⟨_, hb⟩, operandFault_destination_some.2 hd⟩⟩), fun _ => rfl⟩
  · exact .inl ⟨x, y, d, rfl, rfl, rfl⟩

/-- Every instruction answers a next state: its effect, or the fault it raises (R79: nothing but `FAULT`
changes then). -/
theorem execWith_cases (policy : OverflowPolicy) (i : Instr) (s : State) :
    (∃ t, execWith policy i s = .next t ∧ Effect policy s i t) ∨
      ∃ c, execWith policy i s = .next (s.raise c) ∧ Raises policy s i c := by
  have ok : ∀ {t}, Effect policy s i t → (∃ t, execWith policy i s = .next t ∧ Effect policy s i t) :=
    fun h => ⟨_, execWith_of_effect h, h⟩
  cases i with
  | add a b o =>
    rcases sourcesAndTarget_cases s a b o with ⟨x, y, d, ha, hb, hd⟩ | ⟨c, hc, hbody⟩
    · rcases hr : narrow policy (x.toInt + y.toInt) with c | r
      · obtain ⟨hp, ho, rfl⟩ := narrow_error hr
        exact .inr ⟨_, by simp [execWith, execAddWith, arithmetic, bind, Except.bind, ha, hb, hd, hr],
          .addOverflow ha hb hd hp ho⟩
      · exact .inl (ok (.add ha hb hd hr))
    · exact .inr ⟨c, congrArg (finish s) (hbody _), .operand hc⟩
  | mul a b o =>
    rcases sourcesAndTarget_cases s a b o with ⟨x, y, d, ha, hb, hd⟩ | ⟨c, hc, hbody⟩
    · rcases hr : narrow policy (x.toInt * y.toInt) with c | r
      · obtain ⟨hp, ho, rfl⟩ := narrow_error hr
        exact .inr ⟨_, by simp [execWith, execMulWith, arithmetic, bind, Except.bind, ha, hb, hd, hr],
          .mulOverflow ha hb hd hp ho⟩
      · exact .inl (ok (.mul ha hb hd hr))
    · exact .inr ⟨c, congrArg (finish s) (hbody _), .operand hc⟩
  | inp o =>
    rcases hd : writeAddress s 1 o with c | d
    · exact .inr ⟨c, by simp [execWith, execIn, bind, Except.bind, hd],
        .operand (by simp [operandRoles, firstOperandFault, operandFault_destination_some.2 hd])⟩
    rcases hq : s.inq with _ | ⟨v, rest⟩
    · exact .inl (ok (.inpSuspend hd hq))
    · exact .inl (ok (.inpPop hd hq))
  | out a =>
    rcases source_cases s a with ⟨x, ha⟩ | ⟨c, hc, hbody⟩
    · exact .inl (ok (.out ha))
    · exact .inr ⟨c, congrArg (finish s) (hbody _), .operand hc⟩
  | jt a b =>
    rcases sources_cases s a b with ⟨x, y, ha, hb⟩ | ⟨c, hc, hbody⟩
    · by_cases hx : x.toInt = 0
      · exact .inl (ok (.jtNot ha hb hx))
      · exact .inl (ok (.jtTaken ha hb hx))
    · exact .inr ⟨c, congrArg (finish s) (hbody _), .operand hc⟩
  | jf a b =>
    rcases sources_cases s a b with ⟨x, y, ha, hb⟩ | ⟨c, hc, hbody⟩
    · by_cases hx : x.toInt = 0
      · exact .inl (ok (.jfTaken ha hb hx))
      · exact .inl (ok (.jfNot ha hb hx))
    · exact .inr ⟨c, congrArg (finish s) (hbody _), .operand hc⟩
  | lt a b o =>
    rcases sourcesAndTarget_cases s a b o with ⟨x, y, d, ha, hb, hd⟩ | ⟨c, hc, hbody⟩
    · exact .inl (ok (.lt ha hb hd))
    · exact .inr ⟨c, congrArg (finish s) (hbody _), .operand hc⟩
  | eq a b o =>
    rcases sourcesAndTarget_cases s a b o with ⟨x, y, d, ha, hb, hd⟩ | ⟨c, hc, hbody⟩
    · exact .inl (ok (.eq ha hb hd))
    · exact .inr ⟨c, congrArg (finish s) (hbody _), .operand hc⟩
  | arb a =>
    rcases source_cases s a with ⟨v, ha⟩ | ⟨c, hc, hbody⟩
    · rcases hr : narrow policy (s.rb.toInt + v.toInt) with c | r
      · obtain ⟨hp, ho, rfl⟩ := narrow_error hr
        exact .inr ⟨_, by simp [execWith, execArbWith, bind, Except.bind, ha, hr], .arbOverflow ha hp ho⟩
      · exact .inl (ok (.arb ha hr))
    · exact .inr ⟨c, congrArg (finish s) (hbody _), .operand hc⟩
  | hlt => exact .inl (ok .hlt)

/-- The inversion of `execWith`. -/
theorem execWith_next (h : execWith policy i s = .next t) :
    Effect policy s i t ∨ ∃ c, t = s.raise c ∧ Raises policy s i c := by
  rcases execWith_cases policy i s with ⟨t', ht, he⟩ | ⟨c, ht, hr⟩
  · rw [ht] at h; cases h; exact .inl he
  · rw [ht] at h; cases h; exact .inr ⟨c, rfl, hr⟩

/-- Every instruction answers a next state, in every state. -/
theorem execWith_total (policy : OverflowPolicy) (i : Instr) (s : State) :
    ∃ t, execWith policy i s = .next t := by
  rcases execWith_cases policy i s with ⟨t, ht, -⟩ | ⟨c, ht, -⟩ <;> exact ⟨_, ht⟩

/-- An effect means that the operands resolve. -/
theorem Effect.operandsResolve (h : Effect policy s i t) :
    firstOperandFault s 1 (operandRoles i) = none := by
  have hs : ∀ {k o v}, readOperand s k o = .ok v → operandFault s k .source o = none :=
    fun h => operandFault_source.2 ⟨_, h⟩
  have hw : ∀ {k o d}, writeAddress s k o = .ok d → operandFault s k .destination o = none :=
    fun h => operandFault_destination.2 ⟨_, h⟩
  cases h with
  | add ha hb hd | mul ha hb hd | lt ha hb hd | eq ha hb hd =>
    simp [operandRoles, firstOperandFault, hs ha, hs hb, hw hd]
  | inpSuspend hd | inpPop hd => simp [operandRoles, firstOperandFault, hw hd]
  | out ha | arb ha => simp [operandRoles, firstOperandFault, hs ha]
  | jtTaken ha hb | jtNot ha hb | jfTaken ha hb | jfNot ha hb =>
    simp [operandRoles, firstOperandFault, hs ha, hs hb]
  | hlt => rfl

/-- The converse of the fault side of `execWith_cases`: what `Raises` names is what `execWith` enters. -/
theorem execWith_of_raises {c : FaultCause} (h : Raises policy s i c) :
    execWith policy i s = .next (s.raise c) := by
  cases h with
  | operand h =>
    rcases execWith_cases policy i s with ⟨t, -, he⟩ | ⟨c', ht, hr⟩
    · rw [he.operandsResolve] at h; cases h
    · have resolved : ∀ {a b o : Operand} {x y : Word} {d : Nat}, readOperand s 1 a = .ok x →
          readOperand s 2 b = .ok y → writeAddress s 3 o = .ok d →
          firstOperandFault s 1 [(.source, a), (.source, b), (.destination, o)] = none := by
        intro a b o x y d ha hb hd
        simp [firstOperandFault, operandFault_source.2 ⟨_, ha⟩, operandFault_source.2 ⟨_, hb⟩,
          operandFault_destination.2 ⟨_, hd⟩]
      cases hr with
      | operand h' => rw [h] at h'; cases h'; exact ht
      | addOverflow ha hb hd | mulOverflow ha hb hd =>
        rw [operandRoles, resolved ha hb hd] at h; cases h
      | arbOverflow ha =>
        simp [operandRoles, firstOperandFault, operandFault_source.2 ⟨_, ha⟩] at h
  | addOverflow ha hb hd hp hr =>
    simp [execWith, execAddWith, arithmetic, bind, Except.bind, ha, hb, hd, narrow, hp, hr]
  | mulOverflow ha hb hd hp hr =>
    simp [execWith, execMulWith, arithmetic, bind, Except.bind, ha, hb, hd, narrow, hp, hr]
  | arbOverflow ha hp hr =>
    simp [execWith, execArbWith, bind, Except.bind, ha, narrow, hp, hr]

/-- At the spec's parameter value an instruction raises nothing but an operand's fault. -/
theorem raises_wrap {c : FaultCause} (h : Raises .wrap s i c) :
    firstOperandFault s 1 (operandRoles i) = some c := by
  cases h with
  | operand h => exact h
  | addOverflow _ _ _ hp | mulOverflow _ _ _ hp | arbOverflow _ hp => cases hp

/-- What an instruction raises is never a fetch fault, so its record holds the opcode word. -/
theorem Raises.faultWord_eq {c : FaultCause} (h : Raises policy s i c) :
    faultWord s c = some s.opcodeWord := by
  cases h with
  | operand h => exact faultWord_of_firstOperandFault h
  | addOverflow | mulOverflow | arbOverflow => rfl

/-- At the spec's parameter value `exec` is `execWith`. -/
theorem exec_eq_execWith (i : Instr) (s : State) : exec i s = execWith Config.params.overflow i s := by
  cases i <;> rfl

theorem exec_of_effect (h : Effect .wrap s i t) : exec i s = .next t := by
  rw [exec_eq_execWith]; exact execWith_of_effect h

/-- The inversion of `exec`: an instruction has its effect or enters the first fault of its operands. -/
theorem exec_next (h : exec i s = .next t) :
    Effect .wrap s i t ∨ ∃ c, t = s.raise c ∧ firstOperandFault s 1 (operandRoles i) = some c := by
  rw [exec_eq_execWith] at h
  rcases execWith_next h with h | ⟨c, rfl, hr⟩
  · exact .inl h
  · exact .inr ⟨c, rfl, raises_wrap hr⟩

/-- The operands of a well-formed instruction never raise `ILLEGAL_WRITE_MODE` (R58: decode has refused it). -/
theorem firstOperandFault_ne_illegalWriteMode {j : Nat} (h : i.wellFormed = true) :
    firstOperandFault s 1 (operandRoles i) ≠ some (.illegalWriteMode j) := by
  intro hc
  have key : ∀ {k r o}, (r = .destination → o.mode.legalDestination = true) →
      operandFault s k r o ≠ some (.illegalWriteMode j) := by
    intro k r o hr hh
    unfold operandFault at hh
    split at hh
    · next hm =>
      split at hh
      · next hd => have := hr hd; rw [hm] at this; cases this
      · cases hh
    · split at hh <;> cases hh
  cases i <;> simp only [operandRoles] at hc
  case hlt => cases hc
  case out a | arb a =>
    rw [firstOperandFault] at hc
    split at hc
    · next h => cases hc; exact key (by intro h; cases h) h
    · cases hc
  case inp a =>
    rw [firstOperandFault] at hc
    split at hc
    · next h' => cases hc; exact key (fun _ => h) h'
    · cases hc
  case jt a b | jf a b =>
    rcases firstOperandFault_two.1 hc with h | ⟨-, h⟩ <;> exact key (by intro h; cases h) h
  all_goals
    rcases firstOperandFault_three.1 hc with h' | ⟨-, h' | ⟨-, h'⟩⟩
    · exact key (by intro h; cases h) h'
    · exact key (by intro h; cases h) h'
    · exact key (fun _ => h) h'

end Sys2Proof.Machine
end

