-- ==== Sys2Proof/Laws/Step.lean ====
section
/-! SUPPORT. Everything a step can do, said once. -/

namespace Sys2Proof.Machine

variable {stray : StrayDigits} {p : Params} {s t : State}

/-! ## Fetching -/

theorem fetches_ipAddr (h : s.fetches) : s.ip.toInt = s.ipAddr := by
  have := h.2.1
  simp only [State.ipAddr]
  omega

theorem ip_le_addrMax (s : State) : s.ip.toInt ≤ Config.addrMax := by
  have := BitVec.toInt_lt (x := s.ip)
  simp only [Config.addrMax]
  omega

/-- After the fetch-address test the fetch cannot fault (40_execution_cycle.md R73). -/
theorem fetchWord_eq (h : 0 ≤ s.ip.toInt) : fetchWord s = .ok s.opcodeWord :=
  memRead_ok_iff.2 ⟨h, ip_le_addrMax s, rfl⟩

/-- Phases 2 to 4 from a legal `IP`: the decode of the opcode word, then its operand words. -/
theorem fetchInstr_eq (h : 0 ≤ s.ip.toInt) :
    fetchInstr stray s = (decodeWord stray s.opcodeWord).bind (fetchOperands s) := by
  unfold fetchInstr
  rw [fetchWord_eq h]
  rfl

/-- An operand word faults only where its address is above `ADDR_MAX`, with kind `operand-fetch` (R56). -/
theorem operandWord_error {n k : Nat} {c : FaultCause} (h : operandWord s n k = .error c) :
    k ≤ n ∧ ¬ (0 ≤ s.ip.toInt + k ∧ s.ip.toInt + k ≤ Config.addrMax) ∧
      c = .addressFault .operandFetch (s.ip.toInt + k) := by
  unfold operandWord at h
  split at h
  · next hk => exact ⟨hk, memRead_error_iff.1 h⟩
  · cases h

theorem operandWord_ok {n k : Nat} {v : Word} (h : operandWord s n k = .ok v) (hk : k ≤ n) :
    0 ≤ s.ip.toInt + k ∧ s.ip.toInt + k ≤ Config.addrMax ∧ s.mem.read (s.ip.toInt + k).toNat = v := by
  unfold operandWord at h
  rw [if_pos hk] at h
  exact memRead_ok_iff.1 h

theorem operandWord_beyond {n k : Nat} (hk : ¬ k ≤ n) : operandWord s n k = .ok 0 := by
  simp [operandWord, hk]

theorem fetchOperands_error {h : OpcodeWord} {c : FaultCause} (hf : fetchOperands s h = .error c) :
    ∃ k, 1 ≤ k ∧ k ≤ h.opcode.operands ∧ operandWord s h.opcode.operands k = .error c ∧
      ∀ j, 1 ≤ j → j < k → ∃ v, operandWord s h.opcode.operands j = .ok v := by
  unfold fetchOperands at hf
  rcases h1 : operandWord s h.opcode.operands 1 with c1 | p1
  · rw [h1] at hf; cases hf
    exact ⟨1, le_rfl, (operandWord_error h1).1, h1, fun j _ _ => by omega⟩
  rcases h2 : operandWord s h.opcode.operands 2 with c2 | p2
  · rw [h1, h2] at hf; cases hf
    exact ⟨2, by omega, (operandWord_error h2).1, h2, fun j _ _ => ⟨p1, by rwa [show j = 1 by omega]⟩⟩
  rcases h3 : operandWord s h.opcode.operands 3 with c3 | p3
  · rw [h1, h2, h3] at hf; cases hf
    refine ⟨3, by omega, (operandWord_error h3).1, h3, fun j _ _ => ?_⟩
    have : j = 1 ∨ j = 2 := by omega
    rcases this with rfl | rfl
    · exact ⟨p1, h1⟩
    · exact ⟨p2, h2⟩
  · rw [h1, h2, h3] at hf; cases hf

theorem fetchOperands_ok {h : OpcodeWord} {i : Instr} (hf : fetchOperands s h = .ok i) :
    ∃ p1 p2 p3, operandWord s h.opcode.operands 1 = .ok p1 ∧ operandWord s h.opcode.operands 2 = .ok p2 ∧
      operandWord s h.opcode.operands 3 = .ok p3 ∧ i = h.instr p1 p2 p3 := by
  unfold fetchOperands at hf
  rcases h1 : operandWord s h.opcode.operands 1 with c1 | p1
  · rw [h1] at hf; cases hf
  rcases h2 : operandWord s h.opcode.operands 2 with c2 | p2
  · rw [h1, h2] at hf; cases hf
  rcases h3 : operandWord s h.opcode.operands 3 with c3 | p3
  · rw [h1, h2, h3] at hf; cases hf
  · rw [h1, h2, h3] at hf
    exact ⟨p1, p2, p3, rfl, rfl, rfl, (Except.ok.inj hf).symm⟩

/-- The operand words of a well-formed instruction that stands at `IP` complete it. -/
theorem fetchOperands_of_holds {i : Instr} (hip : 0 ≤ s.ip.toInt) (hw : s.holdsAtIp (encode i)) :
    fetchOperands s (headerOf i) = .ok i := by
  have word : ∀ (k : Nat) (o : Operand), i.operands[k]? = some o →
      memRead s .operandFetch (s.ip.toInt + ((k + 1 : Nat) : Int)) = .ok o.word := by
    intro k o ho
    obtain ⟨h1, h2⟩ := hw (k + 1) o.word (by simp [encode, ho])
    refine memRead_ok_iff.2 ⟨by omega, h1, ?_⟩
    rw [← h2]
    congr 1
    simp only [State.ipAddr]
    omega
  have w0 := word 0
  have w1 := word 1
  have w2 := word 2
  cases i <;> simp [Instr.operands] at w0 w1 w2 <;>
    simp [fetchOperands, headerOf, Instr.operands, Instr.opcode, Opcode.operands, operandWord, OpcodeWord.instr,
      bind, Except.bind, pure, Except.pure, *]

/-- The words of a well-formed instruction at `IP` are fetched and decoded to it. -/
theorem fetchInstr_of_holds {i : Instr} (hip : 0 ≤ s.ip.toInt) (hi : i.wellFormed = true)
    (hw : s.holdsAtIp (encode i)) : fetchInstr stray s = .ok i := by
  have h0 : s.opcodeWord = BitVec.ofNat 64 i.opcodeNumber := (hw 0 _ (by simp [encode])).2
  rw [fetchInstr_eq hip, h0, decodeWord_opcodeNumber stray hi]
  exact fetchOperands_of_holds hip hw

/-- What a fetch from a legal `IP` raises is never a fetch fault, so its record holds the opcode word. -/
theorem faultWord_of_fetchInstr {c : FaultCause} (hip : 0 ≤ s.ip.toInt) (h : fetchInstr stray s = .error c) :
    faultWord s c = some s.opcodeWord := by
  rw [fetchInstr_eq hip] at h
  rcases hd : decodeWord stray s.opcodeWord with e | hdr <;> rw [hd] at h
  · cases h
    have hc := decodeWord_error_code hd
    cases c with
    | addressFault kind addr => exact absurd hc (by decide : ¬ (5 : Nat) ≤ 4)
    | _ => rfl
  · obtain ⟨k, -, -, hk, -⟩ := fetchOperands_error h
    obtain ⟨-, -, rfl⟩ := operandWord_error hk
    rfl

/-! ## The whole step -/

/-- At the spec's parameter values `stepWith` is `step`. -/
theorem stepWith_params (s : State) : stepWith Config.params s = step s := by
  unfold stepWith step stepWithExec
  simp only [exec_eq_execWith]

theorem stepWith_live (h : s.live = true) :
    stepWith p s =
      if s.ip.toInt < 0 then .next (s.raise (.addressFault .fetch s.ip.toInt))
      else if s.hwm ≤ s.ipAddr then .next s.haltImplicitly
      else match fetchInstr p.strayDigits s with
        | .error c => .next (s.raise c)
        | .ok i => execWith p.overflow i s := by
  obtain ⟨h1, h2⟩ := (live_iff s).1 h
  simp only [stepWith, stepWithExec, h1, h2, Option.isSome_none, Bool.false_eq_true, if_false]
  rfl

theorem stepWith_fetches (h : s.fetches) :
    stepWith p s = match fetchInstr p.strayDigits s with
      | .error c => .next (s.raise c)
      | .ok i => execWith p.overflow i s := by
  rw [stepWith_live h.1, if_neg (not_lt.2 h.2.1), if_neg (not_le.2 h.2.2)]

theorem stepWith_halted (h : s.halted = true) : stepWith p s = .fault .halted := by
  simp [stepWith, stepWithExec, h]

theorem stepWith_faulted (h : s.halted = false) (hf : s.fault ≠ none) : stepWith p s = .fault .faulted := by
  obtain ⟨r, hr⟩ := Option.ne_none_iff_exists'.1 hf
  simp [stepWith, stepWithExec, h, hr]

/-- The inversion of a step: a live machine enters the fetch fault, halts implicitly, enters the fault of the
fetch or decode, or runs the instruction at `IP`. -/
theorem stepWith_cases (h : stepWith p s = .next t) :
    s.live = true ∧
      (s.ip.toInt < 0 ∧ t = s.raise (.addressFault .fetch s.ip.toInt) ∨
        0 ≤ s.ip.toInt ∧ s.hwm ≤ s.ipAddr ∧ t = s.haltImplicitly ∨
        s.fetches ∧ ((∃ c, fetchInstr p.strayDigits s = .error c ∧ t = s.raise c) ∨
          ∃ i, fetchInstr p.strayDigits s = .ok i ∧ execWith p.overflow i s = .next t)) := by
  by_cases hl : s.live = true
  · refine ⟨hl, ?_⟩
    rw [stepWith_live hl] at h
    split at h
    · next hip => cases h; exact .inl ⟨hip, rfl⟩
    · next hip =>
      have hip := not_lt.1 hip
      split at h
      · next hh => cases h; exact .inr (.inl ⟨hip, hh, rfl⟩)
      · next hh =>
        refine .inr (.inr ⟨⟨hl, hip, not_le.1 hh⟩, ?_⟩)
        split at h
        · next c hc => cases h; exact .inl ⟨c, hc, rfl⟩
        · next i hi => exact .inr ⟨i, hi, h⟩
  · exfalso
    rw [live_iff, not_and_or] at hl
    by_cases hh : s.halted = true
    · rw [stepWith_halted hh] at h; cases h
    · have hh : s.halted = false := by simpa using hh
      rw [stepWith_faulted hh (hl.resolve_left (absurd hh))] at h; cases h

/-- The inversion down to effects and causes: what the step did, and, for a fault, the recorded word. -/
theorem stepWith_effects (h : stepWith p s = .next t) :
    s.live = true ∧
      (s.ip.toInt < 0 ∧ t = s.raise (.addressFault .fetch s.ip.toInt) ∨
        0 ≤ s.ip.toInt ∧ s.hwm ≤ s.ipAddr ∧ t = s.haltImplicitly ∨
        s.fetches ∧ (∃ c, t = s.raise c ∧ faultWord s c = some s.opcodeWord) ∨
        s.fetches ∧ ∃ i, fetchInstr p.strayDigits s = .ok i ∧ Effect p.overflow s i t) := by
  obtain ⟨hl, h | h | ⟨hf, ⟨c, hc, rfl⟩ | ⟨i, hi, he⟩⟩⟩ := stepWith_cases h
  · exact ⟨hl, .inl h⟩
  · exact ⟨hl, .inr (.inl h)⟩
  · exact ⟨hl, .inr (.inr (.inl ⟨hf, c, rfl, faultWord_of_fetchInstr hf.2.1 hc⟩))⟩
  · rcases execWith_next he with he | ⟨c, rfl, hr⟩
    · exact ⟨hl, .inr (.inr (.inr ⟨hf, i, hi, he⟩))⟩
    · exact ⟨hl, .inr (.inr (.inl ⟨hf, c, rfl, hr.faultWord_eq⟩))⟩

/-- A live machine always has a next state (40_execution_cycle.md R70). -/
theorem stepWith_total (p : Params) (h : s.live = true) : ∃ t, stepWith p s = .next t := by
  rw [stepWith_live h]
  split
  · exact ⟨_, rfl⟩
  · split
    · exact ⟨_, rfl⟩
    · split
      · exact ⟨_, rfl⟩
      · exact execWith_total _ _ _

/-- The step of the interface from a state that fetches. -/
theorem step_fetches (h : s.fetches) :
    step s = match fetchInstr .fault s with
      | .error c => .next (s.raise c)
      | .ok i => exec i s := by
  rw [← stepWith_params, stepWith_fetches h]
  simp only [exec_eq_execWith]
  rfl

/-- What stops phases 2 to 4 is entered with the fetched word (40_execution_cycle.md R74). -/
theorem step_fetchInstr_error {c : FaultCause} (h : s.fetches) (hc : fetchInstr .fault s = .error c) :
    step s = .next (s.withFault c (some s.opcodeWord)) := by
  rw [step_fetches h, hc, ← raise_eq_withFault (faultWord_of_fetchInstr h.2.1 hc)]

theorem step_decodeWord_error {c : FaultCause} (h : s.fetches)
    (hc : decodeWord .fault s.opcodeWord = .error c) :
    step s = .next (s.withFault c (some s.opcodeWord)) :=
  step_fetchInstr_error h (by rw [fetchInstr_eq h.2.1, hc]; rfl)

/-- A fetched instruction is well formed. -/
theorem fetchInstr_wellFormed {i : Instr} (hip : 0 ≤ s.ip.toInt) (h : fetchInstr stray s = .ok i) :
    i.wellFormed = true := by
  rw [fetchInstr_eq hip] at h
  rcases hd : decodeWord stray s.opcodeWord with e | hdr <;> rw [hd] at h
  · cases h
  · obtain ⟨p1, p2, p3, -, -, -, rfl⟩ := fetchOperands_ok h
    exact instr_wellFormed (legal_of_decodeWord hd) _ _ _

/-- A step takes from the front of `INQ` and adds at the back of `OUTQ`. -/
theorem stepWith_queues (h : stepWith p s = .next t) :
    ∃ consumed out, s.inq = consumed ++ t.inq ∧ t.outq = s.outq ++ out := by
  obtain ⟨hl, ⟨-, rfl⟩ | ⟨-, -, rfl⟩ | ⟨-, c, rfl, -⟩ | ⟨-, i, hi, he⟩⟩ := stepWith_effects h
  any_goals exact ⟨[], [], rfl, by simp⟩
  cases he with
  | inpPop hd hq => exact ⟨[_], [], by simpa using hq, by simp⟩
  | out ha => exact ⟨[], [_], rfl, rfl⟩
  | _ => exact ⟨[], [], rfl, by simp⟩

end Sys2Proof.Machine
end

