-- ==== Sys2Proof/Laws/HostOps.lean ====
section
/-! SUPPORT. What a step's outcome, a run and the host operations answer, said once. -/

namespace Sys2Proof.Machine

variable {p : Params} {s t : State}

/-! ## Being blocked -/

/-- A blocked machine is live, its `INQ` is empty, and a legal `in` with a legal target stands at `IP`. -/
theorem blocked_iff : blocked p s = true ↔
    s.fetches ∧ s.inq = [] ∧
      ∃ o d, fetchInstr p.strayDigits s = .ok (.inp o) ∧ writeAddress s 1 o = .ok d := by
  unfold blocked
  simp only [Bool.and_eq_true, decide_eq_true_eq, List.isEmpty_iff]
  constructor
  · rintro ⟨⟨⟨⟨h1, h2⟩, h3⟩, h4⟩, h5⟩
    refine ⟨⟨h1, h2, h3⟩, h4, ?_⟩
    split at h5
    · next o ho =>
      rcases hd : writeAddress s 1 o with c | d
      · rw [hd] at h5; cases h5
      · exact ⟨o, d, ho, hd⟩
    · cases h5
  · rintro ⟨⟨h1, h2, h3⟩, h4, o, d, ho, hd⟩
    refine ⟨⟨⟨⟨h1, h2⟩, h3⟩, h4⟩, ?_⟩
    rw [ho]
    simp [hd, Except.isOk, Except.toBool]

/-- The step of a blocked machine changes nothing (40_execution_cycle.md R76). -/
theorem stepWith_blocked (h : blocked p s = true) : stepWith p s = .next s := by
  obtain ⟨hf, hq, o, d, ho, hd⟩ := blocked_iff.1 h
  rw [stepWith_fetches hf, ho]
  exact execWith_of_effect (.inpSuspend hd hq)

/-! ## The outcome of a step -/

/-- Each outcome, from the step: `noStep` exactly where the machine is not live, else by what the next state
records. -/
theorem stepOutcome_cases (p : Params) (s : State) :
    (s.live = false ∧ stepOutcome p s = .noStep) ∨
      ∃ t, s.live = true ∧ stepWith p s = .next t ∧
        ((∃ r, t.fault = some r ∧ stepOutcome p s = .faults t r) ∨
          (t.fault = none ∧ t.halted = true ∧ stepOutcome p s = .halts t) ∨
          (t.fault = none ∧ t.halted = false ∧ blocked p s = true ∧ stepOutcome p s = .suspends t) ∨
          (t.fault = none ∧ t.halted = false ∧ blocked p s = false ∧ stepOutcome p s = .continues t)) := by
  by_cases hl : s.live = true
  · obtain ⟨t, ht⟩ := stepWith_total p hl
    refine .inr ⟨t, hl, ht, ?_⟩
    simp only [stepOutcome, ht]
    rcases hf : t.fault with _ | r
    · cases hh : t.halted <;> cases hb : blocked p s <;> simp
    · simp
  · refine .inl ⟨by simpa using hl, ?_⟩
    unfold stepOutcome
    rcases hs : stepWith p s with t | r | r
    · exact absurd (stepWith_cases hs).1 hl
    · rfl
    · rfl

theorem stepOutcome_faults {r : FaultRecord} (h : stepOutcome p s = .faults t r) :
    s.live = true ∧ stepWith p s = .next t ∧ t.fault = some r := by
  rcases stepOutcome_cases p s with ⟨-, hn⟩ | ⟨t', hl, hs, ⟨r', hf, ho⟩ | ⟨h1, h2, ho⟩ | ⟨-, -, -, ho⟩ | ⟨-, -, -, ho⟩⟩ <;>
    simp_all

theorem stepOutcome_halts (h : stepOutcome p s = .halts t) :
    s.live = true ∧ stepWith p s = .next t ∧ t.fault = none ∧ t.halted = true := by
  rcases stepOutcome_cases p s with ⟨-, hn⟩ | ⟨t', hl, hs, ⟨r', hf, ho⟩ | ⟨h1, h2, ho⟩ | ⟨-, -, -, ho⟩ | ⟨-, -, -, ho⟩⟩ <;>
    simp_all

theorem stepOutcome_suspends (h : stepOutcome p s = .suspends t) : blocked p s = true ∧ t = s := by
  rcases stepOutcome_cases p s with ⟨-, hn⟩ | ⟨t', hl, hs, ⟨r', hf, ho⟩ | ⟨-, -, ho⟩ | ⟨-, -, hb, ho⟩ | ⟨-, -, -, ho⟩⟩
  case inr.inr.inr.inl =>
    rw [ho] at h; cases h
    rw [stepWith_blocked hb] at hs
    exact ⟨hb, by cases hs; rfl⟩
  all_goals rw [h] at *; simp_all

theorem stepOutcome_of_blocked (h : blocked p s = true) : stepOutcome p s = .suspends s := by
  have hl := (live_iff s).1 (blocked_iff.1 h).1.1
  simp [stepOutcome, stepWith_blocked h, hl, h]

theorem stepOutcome_continues (h : stepOutcome p s = .continues t) :
    s.live = true ∧ stepWith p s = .next t ∧ t.live = true ∧ blocked p s = false := by
  rcases stepOutcome_cases p s with ⟨-, hn⟩ | ⟨t', hl, hs, ⟨r', hf, ho⟩ | ⟨-, -, ho⟩ | ⟨-, -, -, ho⟩ | ⟨h1, h2, hb, ho⟩⟩
  case inr.inr.inr.inr =>
    rw [ho] at h; cases h
    exact ⟨hl, hs, (live_iff _).2 ⟨h2, h1⟩, hb⟩
  all_goals rw [h] at *; simp_all

theorem stepOutcome_of_live (hs : stepWith p s = .next t) (ht : t.live = true) (hb : blocked p s = false) :
    stepOutcome p s = .continues t := by
  simp [stepOutcome, hs, (live_iff t).1 ht, hb]

/-! ## Runs -/

/-- A property that every step keeps is kept by the loop of `resume`: the induction over runs, once. -/
theorem runLoop_keeps {P : State → Prop} (hstep : ∀ s t, P s → stepWith p s = .next t → P t)
    {fuel : Nat} {r : ResumeResult} (hs : P s) (h : runLoop p fuel s = some (r, t)) : P t := by
  induction fuel generalizing s with
  | zero => cases h
  | succ n ih =>
    rw [runLoop] at h
    split at h
    · next u hu => exact ih (hstep _ _ hs (stepOutcome_continues hu).2.1) h
    · next u hu => cases h; rw [(stepOutcome_suspends hu).2]; exact hs
    · next u hu => cases h; exact hstep _ _ hs (stepOutcome_halts hu).2.1
    · next u r' hu => cases h; exact hstep _ _ hs (stepOutcome_faults hu).2.1
    · cases h

/-- How a run ends: in the outcome of its last step. -/
theorem runLoop_result {fuel : Nat} {r : ResumeResult} (h : runLoop p fuel s = some (r, t)) :
    (r = .halted ∧ t.halted = true ∧ t.fault = none) ∨ (r = .awaitingInput ∧ blocked p t = true) ∨
      ∃ rec, r = .fatal rec ∧ t.fault = some rec := by
  induction fuel generalizing s with
  | zero => cases h
  | succ n ih =>
    rw [runLoop] at h
    split at h
    · exact ih h
    · next u hu =>
      cases h
      obtain ⟨hb, rfl⟩ := stepOutcome_suspends hu
      exact .inr (.inl ⟨rfl, hb⟩)
    · next u hu => cases h; exact .inl ⟨rfl, (stepOutcome_halts hu).2.2.2, (stepOutcome_halts hu).2.2.1⟩
    · next u r' hu => cases h; exact .inr (.inr ⟨_, rfl, (stepOutcome_faults hu).2.2⟩)
    · cases h

/-- More fuel changes no result: the fuel of the model is no part of what a run does (R125, log 14). -/
theorem runLoop_more {fuel : Nat} {r : ResumeResult} (more : Nat) (h : runLoop p fuel s = some (r, t)) :
    runLoop p (fuel + more) s = some (r, t) := by
  induction fuel generalizing s with
  | zero => cases h
  | succ n ih =>
    rw [Nat.succ_add, runLoop]
    rw [runLoop] at h
    split at h <;> simp_all

/-! ## The host operations on a live and on a stopped machine -/

theorem resume_live {fuel : Nat} {values : List Word} (h : s.live = true) :
    resume p fuel values s = runLoop p fuel (s.appendInput values) := by
  obtain ⟨h1, h2⟩ := (live_iff s).1 h
  simp [resume, h1, h2]

theorem resume_faulted {fuel : Nat} {values : List Word} {r : FaultRecord} (h : s.fault = some r) :
    resume p fuel values s = some (.fatal r, s) := by
  simp [resume, h]

theorem resume_halted {fuel : Nat} {values : List Word} (h : s.halted = true) (hf : s.fault = none) :
    resume p fuel values s = some (resumeHalted p.strictResume, s) := by
  simp [resume, h, hf]

theorem enqueue_live {values : List Word} (h : s.live = true) : enqueue values s = s.appendInput values := by
  simp [enqueue, h]

theorem enqueue_stopped {values : List Word} (h : s.live = false) : enqueue values s = s := by
  simp [enqueue, h]

/-- How `resume` ends: at once on a faulted or a halted machine, else as the loop ends. -/
theorem resume_cases {fuel : Nat} {values : List Word} {r : ResumeResult}
    (h : resume p fuel values s = some (r, t)) :
    (∃ rec, s.fault = some rec ∧ r = .fatal rec ∧ t = s) ∨
      (s.fault = none ∧ s.halted = true ∧ r = resumeHalted p.strictResume ∧ t = s) ∨
      (s.live = true ∧ runLoop p fuel (s.appendInput values) = some (r, t)) := by
  unfold resume at h
  split at h
  · next rec hr => cases h; exact .inl ⟨rec, hr, rfl, rfl⟩
  · next hf =>
    split at h
    · next hh => cases h; exact .inr (.inl ⟨hf, hh, rfl, rfl⟩)
    · next hh => exact .inr (.inr ⟨(live_iff s).2 ⟨by simpa using hh, hf⟩, h⟩)

theorem hostCall_resume {fuel : Nat} {values : List Word} {reply : HostReply}
    (h : hostCall p fuel (.resume values) s = some (reply, t)) :
    ∃ r, reply = .resumed r ∧ resume p fuel values s = some (r, t) := by
  simp only [hostCall, Option.map_eq_some_iff] at h
  obtain ⟨⟨r, u⟩, h1, h2⟩ := h
  cases h2
  exact ⟨r, rfl, h1⟩

/-! ## What a step stores from `INQ` and sends to `OUTQ` -/

theorem executed_of_continues {i : Instr} (h : stepOutcome p s = .continues t)
    (hi : fetchInstr p.strayDigits s = .ok i) : executed p s = some (i, t) := by
  simp [executed, h, hi]

/-- A step that does not continue executes no `in` and no `out`. -/
theorem executed_eq_none (h : ∀ t, stepOutcome p s ≠ .continues t) : executed p s = none := by
  unfold executed
  split
  · next t i hc hi => exact absurd hc (h t)
  · rfl

theorem storedByIn_eq_nil (h : ∀ t, stepOutcome p s ≠ .continues t) : storedByIn p s = [] := by
  simp [storedByIn, executed_eq_none h]

theorem sentByOut_eq_nil (h : ∀ t, stepOutcome p s ≠ .continues t) : sentByOut p s = [] := by
  simp [sentByOut, executed_eq_none h]

/-- A step that continues runs the instruction it fetched, with its effect. -/
theorem stepOutcome_continues_effect (h : stepOutcome p s = .continues t) :
    ∃ i, s.fetches ∧ fetchInstr p.strayDigits s = .ok i ∧ Effect p.overflow s i t ∧ blocked p s = false := by
  obtain ⟨-, hs, ht, hb⟩ := stepOutcome_continues h
  obtain ⟨ht1, ht2⟩ := (live_iff t).1 ht
  obtain ⟨-, ⟨-, rfl⟩ | ⟨-, -, rfl⟩ | ⟨-, c, rfl, -⟩ | ⟨hf, i, hi, he⟩⟩ := stepWith_effects hs
  · simp at ht2
  · simp at ht1
  · simp at ht2
  · exact ⟨i, hf, hi, he, hb⟩

/-- A step that continues takes from `INQ` exactly the word it stores, and adds to `OUTQ` exactly the word it
reads (42_io.md R90, R91). -/
theorem stepOutcome_continues_queues (h : stepOutcome p s = .continues t) :
    s.inq = storedByIn p s ++ t.inq ∧ t.outq = s.outq ++ sentByOut p s := by
  obtain ⟨i, hf, hi, he, hb⟩ := stepOutcome_continues_effect h
  have hx := executed_of_continues h hi
  cases he with
  | inpPop hd hq => simp [storedByIn, sentByOut, hx, hd, hq]
  | inpSuspend hd hq => rw [blocked_iff.2 ⟨hf, hq, _, _, hi, hd⟩] at hb; cases hb
  | out ha => simp [storedByIn, sentByOut, hx, ha]
  | _ => simp [storedByIn, sentByOut, hx]

/-- The step that ends a run leaves both queues as they are. -/
theorem stepOutcome_stops_queues (h : ∀ t, stepOutcome p s ≠ .continues t) (hs : stepWith p s = .next t) :
    t.inq = s.inq ∧ t.outq = s.outq := by
  obtain ⟨hl, ⟨-, rfl⟩ | ⟨-, -, rfl⟩ | ⟨-, c, rfl, -⟩ | ⟨hf, i, hi, he⟩⟩ := stepWith_effects hs
  any_goals exact ⟨rfl, rfl⟩
  have hb : ∀ {j}, fetchInstr p.strayDigits s = .ok j → (∀ o, j ≠ .inp o) → blocked p s = false := by
    intro j hj hne
    by_contra hb
    obtain ⟨-, -, o, d, ho, -⟩ := blocked_iff.1 (by simpa using hb)
    rw [hj] at ho
    exact hne o (Except.ok.inj ho)
  cases he with
  | inpPop hd hq =>
    have : blocked p s = false := by
      by_contra hb
      have := (blocked_iff.1 (by simpa using hb)).2.1
      rw [hq] at this; cases this
    exact absurd (stepOutcome_of_live hs hl this) (h _)
  | out ha => exact absurd (stepOutcome_of_live hs hl (hb hi (by intro o ho; cases ho))) (h _)
  | _ => exact ⟨rfl, rfl⟩

end Sys2Proof.Machine
end

