-- ==== Sys2Proof/Laws/PerInstr.lean ====
section
/-! SUPPORT. What holds of each instruction as syntax, one lemma for each constructor. -/

open Sys2Proof

/-- An instruction encodes to as many words as its length says (30_encoding.md R50). -/
def Sys2Proof.Laws.EncodeLength.Statement (i : Instr) : Prop := (encode i).length = i.length

namespace Sys2Proof.Laws.EncodeLength

theorem add (a b t : Operand) : Statement (.add a b t) := rfl
theorem mul (a b t : Operand) : Statement (.mul a b t) := rfl
theorem inp (t : Operand) : Statement (.inp t) := rfl
theorem out (a : Operand) : Statement (.out a) := rfl
theorem jt (c d : Operand) : Statement (.jt c d) := rfl
theorem jf (c d : Operand) : Statement (.jf c d) := rfl
theorem lt (a b t : Operand) : Statement (.lt a b t) := rfl
theorem eq (a b t : Operand) : Statement (.eq a b t) := rfl
theorem arb (a : Operand) : Statement (.arb a) := rfl
theorem hlt : Statement .hlt := rfl

end Sys2Proof.Laws.EncodeLength
end

