-- ==== Sys2Proof/Laws/Word.lean ====
section
/-! SUPPORT. A word and the integer it denotes. -/

namespace Sys2Proof

theorem toInt_range (w : Word) : wordMin ≤ w.toInt ∧ w.toInt ≤ wordMax := by
  have h1 := BitVec.le_toInt w
  have h2 := BitVec.toInt_lt (x := w)
  simp only [wordMin, wordMax]
  omega

/-- `wrap64` leaves an integer of the word range alone (00_scope.md R6). -/
theorem toInt_wrap64 {x : Int} (h1 : wordMin ≤ x) (h2 : x ≤ wordMax) : (wrap64 x).toInt = x := by
  simp only [wordMin, wordMax] at h1 h2
  rw [wrap64, BitVec.toInt_ofInt, Int.bmod_eq_of_le] <;> omega

/-- A word that denotes no negative integer is the word of that number. -/
theorem ofNat_toNat_toInt {w : Word} (h : 0 ≤ w.toInt) : BitVec.ofNat 64 w.toInt.toNat = w := by
  apply BitVec.eq_of_toInt_eq
  have := BitVec.toInt_lt (x := w)
  rw [BitVec.toInt_ofNat', Int.toNat_of_nonneg h, Int.bmod_eq_of_le] <;> omega

/-- Words are equal where they denote the same integer (44_compare.md R101). -/
theorem toInt_eq_iff {x y : Word} : x.toInt = y.toInt ↔ x = y :=
  ⟨BitVec.eq_of_toInt_eq, fun h => h ▸ rfl⟩

end Sys2Proof
end

