-- ==== Sys2Proof/Tests/Slice0.lean ====
section
/-! SUPPORT. Tests of the model, expected values from 95_test_vectors.md, and for every statement with hypotheses
a state and operands that meet them. -/

namespace Sys2Proof.Tests

open Sys2Proof Sys2Proof.Machine

/-! ## Helpers -/

/-- The state after constructing `program` (47_host_operations.md R116). -/
def machine (program : List Word) : State :=
  { State.reset with mem := Memory.ofWords 0 program, hwm := program.length }

/-- The next state of an outcome. -/
def next : Outcome → Option State
  | .next t => some t
  | .fault _ => none
  | .refused _ => none

/-- One step, and what it leaves in `IP`, the cell `a`, and `HWM`. -/
def cellAfter (a : Nat) (s : State) : Option (Word × Word × Nat) :=
  (next (step s)).map fun t => (t.ip, t.mem.read a, t.hwm)

/-- One step, and what it leaves in `IP`. -/
def ipAfter (s : State) : Option Word := (next (step s)).map (·.ip)

/-- One step, and the fault it records. -/
def faultAfter (s : State) : Option FaultRecord := (next (step s)).bind (·.fault)

theorem test_machine_is_construction : construct [3, 0, 99] = some (machine [3, 0, 99]) := by decide

/-! ## Ill-formed instructions are refused by WellFormed (30_encoding.md R58) -/

theorem test_illFormed_add : (Instr.add ⟨.immediate, 1⟩ ⟨.immediate, 2⟩ ⟨.immediate, 3⟩).wellFormed = false := by
  decide
theorem test_illFormed_mul : (Instr.mul ⟨.position, 1⟩ ⟨.relative, 2⟩ ⟨.immediate, 3⟩).wellFormed = false := by
  decide
theorem test_illFormed_in : (Instr.inp ⟨.immediate, 5⟩).wellFormed = false := by decide
theorem test_illFormed_lt : (Instr.lt ⟨.position, 1⟩ ⟨.position, 2⟩ ⟨.immediate, 3⟩).wellFormed = false := by decide
theorem test_illFormed_eq : (Instr.eq ⟨.position, 1⟩ ⟨.position, 2⟩ ⟨.immediate, 3⟩).wellFormed = false := by decide
theorem test_wellFormed_sources : (Instr.jt ⟨.immediate, 1⟩ ⟨.immediate, 2⟩).wellFormed = true ∧
    (Instr.out ⟨.immediate, 1⟩).wellFormed = true ∧ Instr.hlt.wellFormed = true := by decide

/-! ## Decoding, from 95_test_vectors.md section 2.1 and the programs of sections 1 and 3 -/

theorem test_decode_add : decode .fault [21101, 41, 1, 5] =
    .ok (.add ⟨.immediate, 41⟩ ⟨.immediate, 1⟩ ⟨.relative, 5⟩, []) := by decide
theorem test_decode_mul : decode .fault [1002, 4, 3, 4] =
    .ok (.mul ⟨.position, 4⟩ ⟨.immediate, 3⟩ ⟨.position, 4⟩, []) := by decide
theorem test_decode_in : decode .fault [203, -5, 99] = .ok (.inp ⟨.relative, -5⟩, [99]) := by decide
theorem test_decode_out : decode .fault [204, -1] = .ok (.out ⟨.relative, -1⟩, []) := by decide
theorem test_decode_jt : decode .fault [105, 1, 2] = .ok (.jt ⟨.immediate, 1⟩ ⟨.position, 2⟩, []) := by decide
theorem test_decode_jf : decode .fault [1006, 101, 0] = .ok (.jf ⟨.position, 101⟩ ⟨.immediate, 0⟩, []) := by decide
theorem test_decode_lt : decode .fault [20107, 1, 18, 20] =
    .ok (.lt ⟨.immediate, 1⟩ ⟨.position, 18⟩ ⟨.relative, 20⟩, []) := by decide
theorem test_decode_eq : decode .fault [1108, -1, 8, 3] =
    .ok (.eq ⟨.immediate, -1⟩ ⟨.immediate, 8⟩ ⟨.position, 3⟩, []) := by decide
theorem test_decode_arb : decode .fault [109, 1000] = .ok (.arb ⟨.immediate, 1000⟩, []) := by decide
theorem test_decode_hlt : decode .fault [99, 5] = .ok (.hlt, [5]) := by decide

theorem test_decode_unknownOpcode : decodeWord .fault 0 = .error (.unknownOpcode 0) ∧
    decodeWord .fault 100 = .error (.unknownOpcode 0) ∧ decodeWord .fault 98 = .error (.unknownOpcode 98) ∧
    decodeWord .fault 30077 = .error (.unknownOpcode 77) := by decide
theorem test_decode_stray : decodeWord .fault 1104 = .error (.decodeError 1104) ∧
    decodeWord .fault 10005 = .error (.decodeError 10005) ∧ decodeWord .fault 199 = .error (.decodeError 199) ∧
    decodeWord .fault 100001 = .error (.decodeError 100001) ∧
    decodeWord .fault 9223372036854775807 = .error (.decodeError 9223372036854775807) := by decide
theorem test_decode_negative : decodeWord .fault (-1) = .error (.decodeError (-1)) ∧
    decodeWord .fault (-1101) = .error (.decodeError (-1101)) := by decide
theorem test_decode_modes : decodeWord .fault 103 = .error (.illegalWriteMode 1) ∧
    decodeWord .fault 11101 = .error (.illegalWriteMode 3) ∧ decodeWord .fault 309 = .error (.badModeDigit 1 3) ∧
    decodeWord .fault 13301 = .error (.badModeDigit 1 3) ∧ decodeWord .fault 31101 = .error (.badModeDigit 3 3) := by
  decide
/-- 30_encoding.md R61: under `ignore`, `1099` is a halt and `100001` is an add. -/
theorem test_decode_ignore : decodeWord .ignore 1099 = decodeWord .fault 99 ∧
    decodeWord .ignore 100001 = decodeWord .fault 1 := by decide

/-! ## The host's numbering (log 13) -/

theorem test_decodeTableWord : decodeTableWord 8 4 = some (.out ⟨.position, 0⟩) ∧
    decodeTableWord 16 1105 = some (.jt ⟨.immediate, 0⟩ ⟨.immediate, 0⟩) ∧
    decodeTableWord 64 99 = some .hlt ∧ decodeTableWord 8 0 = none := by decide
theorem test_withFetchWord_runs_it : (next (step (State.reset.withFetchWord 16 104))).map (·.outq) = some [0] ∧
    (next (step (State.reset.withFetchWord 8 99))).map (·.halted) = some true := by decide

/-! ## One step of each instruction, 95_test_vectors.md sections 2.3 to 2.8 -/

theorem test_add_wraps : cellAfter 0 (machine [1101, 9223372036854775807, 1, 0]) =
    some (4, -9223372036854775808, 4) := by decide
theorem test_add_same_cell : cellAfter 5 (machine [1, 5, 5, 5, 99, 21]) = some (4, 42, 6) := by decide
theorem test_mul_wraps : cellAfter 0 (machine [1102, 3037000500, 3037000500, 0]) =
    some (4, -9223372036709301616, 4) := by decide
theorem test_mul_signed : cellAfter 0 (machine [1102, -3, -7, 0]) = some (4, 21, 4) := by decide
theorem test_lt_signed : cellAfter 0 (machine [1107, 9223372036854775807, -9223372036854775808, 0]) =
    some (4, 0, 4) ∧
    cellAfter 0 (machine [1107, -9223372036854775808, 9223372036854775807, 0]) = some (4, 1, 4) := by decide
theorem test_lt_strict : cellAfter 0 (machine [1107, 2, 2, 0]) = some (4, 0, 4) := by decide
theorem test_eq_signs : cellAfter 0 (machine [1108, -1, 1, 0]) = some (4, 0, 4) := by decide
theorem test_eq_unwritten : cellAfter 0 (machine [8, 50, 51, 0, 99]) = some (4, 1, 5) := by decide
theorem test_in_pops_front : (next (step { machine [3, 0, 99] with inq := [42, 43] })).map
    (fun t => (t.mem.read 0, t.inq, t.ip)) = some (42, [43], 2) := by decide
theorem test_in_suspends : next (step (machine [3, 0, 99])) = some (machine [3, 0, 99]) ∧
    stepOutcome Config.params (machine [3, 0, 99]) = .suspends (machine [3, 0, 99]) := by decide
theorem test_out_relative : (next (step { machine [204, -1] with rb := 1 })).map (fun t => (t.outq, t.ip)) =
    some ([204], 2) := by decide
theorem test_out_appends : (next (step { machine [104, 8] with outq := [7] })).map (·.outq) = some [7, 8] := by
  decide
theorem test_jt : ipAfter (machine [1105, -5, 7]) = some 7 ∧ ipAfter (machine [1105, 0, 7]) = some 3 ∧
    ipAfter (machine [1105, 1, -7]) = some (-7) := by decide
theorem test_jt_indirect : ipAfter (machine [5, 0, 2]) = some 2 ∧ ipAfter (machine [105, 1, 2]) = some 2 := by decide
theorem test_jf : ipAfter (machine [1106, 0, 7]) = some 7 ∧ ipAfter (machine [1106, 1, 7]) = some 3 ∧
    ipAfter (machine [6, 50, 2]) = some 2 := by decide
theorem test_jf_untaken_target_faults : faultAfter (machine [6, 0, -4]) =
    some { cause := .addressFault (.operand 2) (-4), ip := 0, word := some 6 } := by decide
theorem test_arb_reads_with_old_base : (next (step { machine [209, -3] with rb := 3 })).map
    (fun t => (t.rb, t.ip)) = some (212, 2) := by decide
theorem test_arb_wraps : (next (step { machine [109, 1] with rb := 9223372036854775807 })).map (·.rb) =
    some (-9223372036854775808) := by decide
theorem test_hlt : next (step (machine [99])) = some { machine [99] with halted := true } := by decide

/-! ## Operands (section 2.2), faults and the implicit halt (section 2.8) -/

/-- The state of section 2.2. -/
def operandState : State := { State.reset with rb := 10, mem := [(5, 50), (15, 150)], hwm := 16 }

theorem test_readOperand : readOperand operandState 1 ⟨.position, 7⟩ = .ok 0 ∧
    readOperand operandState 1 ⟨.immediate, -7⟩ = .ok (-7) ∧ readOperand operandState 1 ⟨.relative, -5⟩ = .ok 50 ∧
    readOperand operandState 2 ⟨.relative, 9223372036854775807⟩ =
      .error (.addressFault (.operand 2) 9223372036854775817) := by decide
theorem test_writeAddress : writeAddress operandState 3 ⟨.relative, -10⟩ = .ok 0 ∧
    writeAddress operandState 3 ⟨.relative, -11⟩ = .error (.addressFault (.operand 3) (-1)) ∧
    writeAddress { operandState with rb := -9223372036854775808 } 3 ⟨.relative, -9223372036854775808⟩ =
      .error (.addressFault (.operand 3) (-18446744073709551616)) := by decide
theorem test_fault_records : faultAfter (machine [55]) =
      some { cause := .unknownOpcode 55, ip := 0, word := some 55 } ∧
    faultAfter (machine [3, -1]) = some { cause := .addressFault (.operand 1) (-1), ip := 0, word := some 3 } ∧
    faultAfter { machine [1105, 1, -7] with ip := -7 } =
      some { cause := .addressFault .fetch (-7), ip := -7, word := none } := by decide
theorem test_implicit_halt : next (step State.reset) =
    some { State.reset with halted := true, haltImplicit := true } := by decide
theorem test_operand_word_beyond_the_program : (next (step (machine [4]))).map (fun t => (t.outq, t.ip, t.hwm)) =
    some ([4], 2, 1) := by decide

/-! ## Host operations (section 2.7) -/

theorem test_session_suspend_and_resume :
    (hostSession Config.params 3 [.resume [], .resume [42, 43], .isHalted] (machine [3, 0, 99])).map
      (fun r => (r.1, r.2.mem.read 0, r.2.inq)) =
    some ([.resumed .awaitingInput, .resumed .halted, .haltedFlag true], 42, [43]) := by decide
theorem test_session_output :
    (hostSession Config.params 4
      [.resume [], .readOutput, .clearOutput, .resume [5], .readOutput] (machine [104, 7, 3, 0, 104, 8, 99])).map
      (·.1) =
    some [.resumed .awaitingInput, .output [7], .done, .resumed .halted, .output [8]] := by decide
theorem test_session_fault_is_sticky :
    (hostSession Config.params 2 [.resume [], .resume [9], .isHalted] (machine [55])).map
      (fun r => (r.1, r.2.inq)) =
    some ([.resumed (.fatal ⟨.unknownOpcode 55, 0, some 55⟩), .resumed (.fatal ⟨.unknownOpcode 55, 0, some 55⟩),
      .haltedFlag false], []) := by decide

/-! ## The memory's canonical form -/

theorem test_write_of_zero_removes_the_cell : Memory.write [(0, 1), (5, 2)] 5 0 = [(0, 1)] ∧
    Memory.write [(0, 1), (5, 2)] 3 7 = [(0, 1), (3, 7), (5, 2)] := by decide

/-! ## Witnesses: states and operands that meet the hypotheses of the statements -/

/-- Everything this machine needs to fetch. -/
theorem machine_fetches {program : List Word} (h : program ≠ []) : (machine program).fetches :=
  ⟨rfl, le_rfl, by
    show 0 < program.length
    exact List.length_pos_iff.2 h⟩

theorem test_witness_DecodingAnEncodedInstructionGivesItBack :
    (Instr.add ⟨.relative, -1⟩ ⟨.immediate, 9223372036854775807⟩ ⟨.relative, 0⟩).wellFormed = true := by decide

theorem test_witness_EncodingADecodedInstructionGivesItsWordsBack : decode .fault [22202, 1, 2, -3, 99] =
    .ok (.mul ⟨.relative, 1⟩ ⟨.relative, 2⟩ ⟨.relative, -3⟩, [99]) := by decide

theorem test_witness_LegalOpcodeWordsAreExactlyTheNinetyNine : (machine [22203]).fetches ∧
    ∀ op, ¬ (0 ≤ (machine [22203]).opcodeWord.toInt ∧
      (machine [22203]).opcodeWord.toInt.toNat ∈ legalOpcodeWords op) :=
  ⟨machine_fetches (by decide), by intro op; cases op <;> decide⟩

theorem test_witness_StrayDigitsFaultOrAreIgnored : (machine [199]).fetches ∧
    0 ≤ (machine [199]).opcodeWord.toInt ∧
    opcodeOf ((machine [199]).opcodeWord.toInt.toNat % 100) = some .hlt ∧
    (machine [199]).opcodeWord.toInt.toNat / 10 ^ (Opcode.hlt.operands + 2) ≠ 0 ∧
    0 ≤ (100001 : Word).toInt ∧ opcodeOf ((100001 : Word).toInt.toNat % 100) = some .add :=
  ⟨machine_fetches (by decide), by decide⟩

theorem test_witness_NegativeOpcodeWordFaults : (machine [-1]).fetches ∧
    (machine [-1]).opcodeWord.toInt < 0 := ⟨machine_fetches (by decide), by decide⟩

theorem test_witness_UnknownOpcodeFaults : (machine [10]).fetches ∧ 0 ≤ (machine [10]).opcodeWord.toInt ∧
    (machine [10]).opcodeWord.toInt.toNat % 100 ∉ [1, 2, 3, 4, 5, 6, 7, 8, 9, 99] :=
  ⟨machine_fetches (by decide), by decide⟩

/-- Operand 2 has the bad digit, operand 1 none. -/
theorem test_witness_LowestBadModeDigitFaults : (machine [33201]).fetches ∧
    0 ≤ (machine [33201]).opcodeWord.toInt ∧
    opcodeOf ((machine [33201]).opcodeWord.toInt.toNat % 100) = some .add ∧
    (machine [33201]).opcodeWord.toInt.toNat / 10 ^ (Opcode.add.operands + 2) = 0 ∧
    1 ≤ 2 ∧ 2 ≤ Opcode.add.operands ∧ 2 < modeDigit 2 (machine [33201]).opcodeWord.toInt.toNat ∧
    ∀ j, 1 ≤ j → j < 2 → modeDigit j (machine [33201]).opcodeWord.toInt.toNat ≤ 2 := by
  refine ⟨machine_fetches (by decide), by decide, by decide, by decide, by decide, by decide, by decide, ?_⟩
  intro j h1 h2
  obtain rfl : j = 1 := by omega
  decide

theorem test_witness_ImmediateDestinationFaults : (machine [103, 5]).fetches ∧
    0 ≤ (machine [103, 5]).opcodeWord.toInt ∧
    opcodeOf ((machine [103, 5]).opcodeWord.toInt.toNat % 100) = some .inp ∧
    (machine [103, 5]).opcodeWord.toInt.toNat / 10 ^ (Opcode.inp.operands + 2) = 0 ∧
    (∀ k, 1 ≤ k → k ≤ Opcode.inp.operands → modeDigit k (machine [103, 5]).opcodeWord.toInt.toNat ≤ 2) ∧
    Opcode.inp.destination = some 1 ∧ modeDigit 1 (machine [103, 5]).opcodeWord.toInt.toNat = 1 := by
  refine ⟨machine_fetches (by decide), by decide, by decide, by decide, ?_, by decide, by decide⟩
  intro k h1 h2
  obtain rfl : k = 1 := le_antisymm h2 h1
  decide

theorem test_witness_StepRunsTheInstructionAtIp : (machine [1101, 2, 3, 0]).fetches ∧
    (Instr.add ⟨.immediate, 2⟩ ⟨.immediate, 3⟩ ⟨.position, 0⟩).wellFormed = true ∧
    (machine [1101, 2, 3, 0]).holdsAtIp (encode (.add ⟨.immediate, 2⟩ ⟨.immediate, 3⟩ ⟨.position, 0⟩)) := by
  refine ⟨machine_fetches (by decide), by decide, ?_⟩
  intro k w h
  match k with
  | 0 | 1 | 2 | 3 => cases h; decide
  | k + 4 => simp [encode, Instr.operands] at h

/-- Each of its clauses has a state: live, halted, faulted. -/
theorem test_witness_StepIsDefinedExactlyWhereLive : State.reset.live = true ∧
    ({ State.reset with halted := true } : State).halted = true ∧
    (State.reset.raise (.unknownOpcode 0)).halted = false ∧ (State.reset.raise (.unknownOpcode 0)).fault ≠ none ∧
    stepOutcome Config.params (machine [3, 0]) = .suspends (machine [3, 0]) ∧
    stepOutcome Config.params State.reset = .halts State.reset.haltImplicitly ∧
    stepOutcome Config.params (machine [0]) =
      .faults ((machine [0]).raise (.unknownOpcode 0)) ⟨.unknownOpcode 0, 0, some 0⟩ := by decide

theorem test_witness_FetchTestFaultsOrHaltsImplicitly : ({ machine [99] with ip := -1 } : State).live = true ∧
    ({ machine [99] with ip := -1 } : State).ip.toInt < 0 ∧
    ({ machine [99] with ip := 1 } : State).live = true ∧
    0 ≤ ({ machine [99] with ip := 1 } : State).ip.toInt ∧
    (({ machine [99] with ip := 1 } : State).hwm : Int) ≤ ({ machine [99] with ip := 1 } : State).ip.toInt := by
  decide

/-- An add in the last two cells: its second operand word has no address. -/
def topAdd : State :=
  { State.reset with ip := 9223372036854775806, mem := [(9223372036854775806, 1)], hwm := 9223372036854775807 }

theorem test_witness_OperandWordAboveAddrMaxFaults : topAdd.fetches ∧
    decodeWord .fault topAdd.opcodeWord = .ok ⟨.add, .position, .position, .position⟩ ∧
    1 ≤ 2 ∧ 2 ≤ Opcode.add.operands ∧ topAdd.ip.toInt + 2 > Config.addrMax ∧
    ∀ j : Nat, 1 ≤ j → j < 2 → topAdd.ip.toInt + j ≤ Config.addrMax := by
  refine ⟨⟨by decide, by decide, by decide⟩, by decide, by decide, by decide, by decide, ?_⟩
  intro j h1 h2
  obtain rfl : j = 1 := by omega
  decide

theorem test_witness_FirstOperandThatFailsIsRaised :
    firstOperandFault State.reset 1 (operandRoles (.add ⟨.position, -1⟩ ⟨.position, -2⟩ ⟨.immediate, 0⟩)) =
      some (.addressFault (.operand 1) (-1)) ∧
    firstOperandFault State.reset 1 (operandRoles (.add ⟨.position, 0⟩ ⟨.immediate, -2⟩ ⟨.relative, 0⟩)) = none := by
  decide

theorem test_witness_SuspensionIsExactlyInputOnAnEmptyQueue : (machine [203, 4]).fetches ∧
    (machine [203, 4]).inq = [] ∧ fetchInstr .fault (machine [203, 4]) = .ok (.inp ⟨.relative, 4⟩) ∧
    writeAddress (machine [203, 4]) 1 ⟨.relative, 4⟩ = .ok 4 := ⟨machine_fetches (by decide), by decide⟩

/-- A step that faults, one that suspends, one that halts implicitly. -/
theorem test_witness_FaultSuspensionAndImplicitHaltArePrecise :
    (next (stepWith Config.params (machine [4, -1]))).map (·.fault.isSome) = some true ∧
    blocked Config.params (machine [3, 0]) = true ∧
    State.reset.haltImplicit = false ∧
    (next (stepWith Config.params State.reset)).map (·.haltImplicit) = some true := by decide

theorem test_witness_FaultRecordTellsPointerWordAndInfo :
    faultAfter (machine [4, -1]) = some ⟨.addressFault (.operand 1) (-1), 0, some 4⟩ ∧
    faultAfter topAdd = some ⟨.addressFault .operandFetch 9223372036854775808, 9223372036854775806, some 1⟩ ∧
    faultAfter { machine [99] with ip := -1 } = some ⟨.addressFault .fetch (-1), -1, none⟩ ∧
    faultAfter (machine [10]) = some ⟨.unknownOpcode 10, 0, some 10⟩ ∧
    faultAfter (machine [10001]) = some ⟨.illegalWriteMode 3, 0, some 10001⟩ ∧
    faultAfter (machine [309]) = some ⟨.badModeDigit 1 3, 0, some 309⟩ ∧
    faultAfter (machine [-99]) = some ⟨.decodeError (-99), 0, some (-99)⟩ := by decide

/-- The clauses of MemRead at the ends of the address space. -/
theorem test_witness_MemReadIsRangeChecked :
    memRead (machine [7]) .operandFetch (-1) = .error (.addressFault .operandFetch (-1)) ∧
    memRead (machine [7]) (.operand 1) 9223372036854775808 =
      .error (.addressFault (.operand 1) 9223372036854775808) ∧
    memRead (machine [7]) .fetch 0 = .ok 7 ∧ memRead (machine [7]) .fetch 9223372036854775807 = .ok 0 := by decide

theorem test_witness_MemWriteChangesOneCellAndHwm :
    (memWrite State.reset 3 (-1) 5).isOk = false ∧ (memWrite State.reset 3 9223372036854775808 5).isOk = false ∧
    (memWrite State.reset 3 0 5).map (·.mem) = .ok [(0, 5)] ∧
    (memWrite State.reset 3 9223372036854775807 5).map (·.hwm) = .ok 9223372036854775808 := by decide

/-- The state of a constructed program of nonzero words meets the invariant. -/
theorem machine_99_inv : (machine [99]).Inv where
  memCanonical := by decide
  unwrittenReadZero := by
    intro a h
    have : [(99 : Word)][a]? = none := List.getElem?_eq_none_iff.2 h
    simp only [machine, read_ofWords, Nat.sub_zero, this, Option.getD_none, ite_self]
  hwmInRange := by decide
  notHaltedAndFaulted := by decide
  implicitHaltHalts := by decide
  implicitHaltAtEnd := by decide
  faultRecordsIp := by decide
  faultRecordsWord := by decide

/-- A faulted state that meets the invariant. -/
theorem machine_99_faulted_inv : ({ machine [99] with ip := -1 }.raise (.addressFault .fetch (-1))).Inv where
  memCanonical := machine_99_inv.memCanonical
  unwrittenReadZero := machine_99_inv.unwrittenReadZero
  hwmInRange := machine_99_inv.hwmInRange
  notHaltedAndFaulted := by decide
  implicitHaltHalts := by decide
  implicitHaltAtEnd := by decide
  faultRecordsIp := by intro r h; cases h; rfl
  faultRecordsWord := by intro r h; cases h; rfl

theorem test_witness_CellsBetweenOldAndNewMarkReadZero : (machine [99]).Inv ∧ (machine [99]).hwm ≤ 1005 ∧
    1005 ≤ Config.addrMax := ⟨machine_99_inv, by decide, by decide⟩

/-- Program P4: the add stores the opcode word of the next step. -/
theorem test_witness_StoreIsSeenByTheNextFetch :
    memWrite (machine [99]) 1 1 7 = .ok ((machine [99]).store 1 7) ∧ (1 : Word).toInt = (1 : Nat) ∧
    readOperand (machine [1101, 100, 4, 4, 99]) 1 ⟨.immediate, 100⟩ = .ok 100 ∧
    readOperand (machine [1101, 100, 4, 4, 99]) 2 ⟨.immediate, 4⟩ = .ok 4 ∧
    writeAddress (machine [1101, 100, 4, 4, 99]) 3 ⟨.position, 4⟩ = .ok 4 ∧
    (wrap64 ((machine [1101, 100, 4, 4, 99]).ip.toInt + 4)).toInt = (4 : Nat) := by decide

/-- The relative operand at both ends of the address space. -/
theorem test_witness_RelativeOperandNamesThePositionCell : 0 ≤ operandState.rb.toInt + (-10 : Word).toInt ∧
    operandState.rb.toInt + (-10 : Word).toInt ≤ Config.addrMax ∧
    operandState.rb.toInt + (9223372036854775797 : Word).toInt = Config.addrMax := by decide

/-- Operands for `AddStoresTheWrappedSum`, `MulStoresTheWrappedProduct`, `LtStoresTheSignedComparison` and
`EqStoresTheEqualityTest`: in every mode, the destination above `HWM`. -/
theorem test_witness_threeOperandInstructions : readOperand operandState 1 ⟨.position, 5⟩ = .ok 50 ∧
    readOperand operandState 2 ⟨.relative, 5⟩ = .ok 150 ∧ readOperand operandState 2 ⟨.immediate, 50⟩ = .ok 50 ∧
    writeAddress operandState 3 ⟨.relative, 990⟩ = .ok 1000 ∧
    writeAddress operandState 3 ⟨.position, 9223372036854775807⟩ = .ok 9223372036854775807 := by decide

theorem test_witness_InStoresTheFrontOfTheQueue :
    writeAddress { operandState with inq := [-1, 2] } 1 ⟨.relative, -10⟩ = .ok 0 ∧
    ({ operandState with inq := [-1, 2] } : State).inq = -1 :: [2] := by decide

theorem test_witness_InOnAnEmptyQueueChangesNothing : operandState.inq = [] ∧
    writeAddress operandState 1 ⟨.position, 9⟩ = .ok 9 ∧
    writeAddress operandState 1 ⟨.position, -1⟩ = .error (.addressFault (.operand 1) (-1)) ∧
    writeAddress operandState 1 ⟨.immediate, 5⟩ = .error (.illegalWriteMode 1) := by decide

/-- Operands for `OutAppendsItsValue`, `ArbAddsToTheRelativeBase`, `JtJumpsExactlyOnNonzero` and
`JfJumpsExactlyOnZero`: a zero and a nonzero condition, a negative target. -/
theorem test_witness_sourceOperandInstructions : readOperand operandState 1 ⟨.position, 6⟩ = .ok 0 ∧
    readOperand operandState 1 ⟨.relative, 5⟩ = .ok 150 ∧ readOperand operandState 2 ⟨.immediate, -7⟩ = .ok (-7) := by
  decide

theorem test_witness_StoringInstructionsChangeOnlyTheTargetCell :
    destinationOf (.eq ⟨.position, 5⟩ ⟨.immediate, 50⟩ ⟨.position, 6⟩) = some (3, ⟨.position, 6⟩) ∧
    (next (exec (.eq ⟨.position, 5⟩ ⟨.immediate, 50⟩ ⟨.position, 6⟩) operandState)).map (·.mem.read 6) = some 1 ∧
    firstOperandFault operandState 1 (operandRoles (.eq ⟨.position, 5⟩ ⟨.immediate, 50⟩ ⟨.position, 6⟩)) = none := by
  decide

theorem test_witness_OtherInstructionsLeaveMemoryAlone : destinationOf (.arb ⟨.position, 5⟩) = none ∧
    (next (exec (.arb ⟨.position, 5⟩) operandState)).map (·.rb) = some 60 ∧
    firstOperandFault operandState 1 (operandRoles (.arb ⟨.position, 5⟩)) = none := by decide

theorem test_witness_OnlyArbChangesTheRelativeBase : (next (step (machine [109, 1]))).map (·.rb) = some 1 ∧
    (machine [109, 1]).rb = 0 := by decide

theorem test_witness_OnlyDestinationsChangeMemory :
    (next (step (machine [1101, 1, 1, 5]))).map (·.mem.read 5) = some 2 := by decide

theorem test_witness_StepPopsAndAppendsAtMostOneWord :
    (next (step { machine [3, 9] with inq := [8, 7] })).map (·.inq) = some [7] ∧
    (next (step { machine [104, 1] with outq := [9] })).map (·.outq) = some [9, 1] := by decide

theorem test_witness_OnlyHaltsSetHalted : (next (step (machine [99]))).map (·.halted) = some true ∧
    (next (step State.reset)).map (·.halted) = some true := by decide

/-- Steps for `OutputIsNeverRead` (at the other values of the parameters) and
`AppendedInputIsNotSeenUnlessBlocked`. -/
theorem test_witness_steps :
    (next (stepWith ⟨.fault, .ignore, .error, true⟩ (machine [100104, 5]))).map (·.outq) = some [5] ∧
    blocked Config.params (machine [104, 5]) = false ∧
    (next (stepWith Config.params (machine [104, 5]))).map (·.outq) = some [5] := by decide

theorem test_witness_EveryStepKeepsTheInvariant : (machine [99]).Inv ∧
    stepWith Config.params (machine [99]) = .next { machine [99] with halted := true } := ⟨machine_99_inv, rfl⟩

theorem test_witness_HostOperationsKeepTheInvariant : construct [99] = some (machine [99]) ∧ (machine [99]).Inv ∧
    hostCall Config.params 1 (.resume []) (machine [99]) =
      some (.resumed .halted, { machine [99] with halted := true }) := ⟨by decide, machine_99_inv, by decide⟩

theorem test_witness_HighWaterMarkNeverDecreases :
    (next (stepWith Config.params (machine [1101, 1, 1, 5]))).map (·.hwm) = some 6 ∧
    (hostCall Config.params 2 (.resume [1]) (machine [3, 9, 99])).map (·.2.hwm) = some 10 := by decide

theorem test_witness_ConstructionGivesTheResetValues : construct [3, 0, 99] = some (machine [3, 0, 99]) ∧
    ([3, 0, 99] : List Word).length ≤ Config.addrMax + 1 := by decide

theorem test_witness_ResumeIsEnqueueThenResume : (machine [99]).live = true ∧
    ({ machine [99] with halted := true } : State).live = false := by decide

theorem test_witness_OutputAccessAndHaltedQuery :
    ({ machine [99] with ip := -1 }.raise (.addressFault .fetch (-1))).Inv ∧
    ({ machine [99] with ip := -1 }.raise (.addressFault .fetch (-1))).fault ≠ none :=
  ⟨machine_99_faulted_inv, by decide⟩

/-- `resume` with each of its results. -/
theorem test_witness_ResumeResultsMeanWhatTheySay :
    (resume Config.params 1 [] (machine [99])).map (·.1) = some .halted ∧
    (resume Config.params 2 [1] (machine [3, 9, 3, 9])).map (·.1) = some .awaitingInput ∧
    (resume Config.params 1 [] (machine [0])).map (·.1) = some (.fatal ⟨.unknownOpcode 0, 0, some 0⟩) ∧
    (resume { Config.params with strictResume := .error } 1 [] { machine [99] with halted := true }).map (·.1) =
      some .misuse := by decide

theorem test_witness_SuspensionIsResumableAndIdempotent : blocked Config.params (machine [3, 0, 99]) = true := by
  decide

theorem test_witness_ResumeOfAStoppedMachineChangesNothing :
    ({ machine [99] with halted := true } : State).halted = true ∧
    ({ machine [99] with halted := true } : State).fault = none ∧
    ((machine [0]).raise (.unknownOpcode 0)).fault = some ⟨.unknownOpcode 0, 0, some 0⟩ := by decide

theorem test_witness_StoppedMachineIsFrozen : ({ machine [99] with halted := true } : State).live = false ∧
    ((machine [0]).raise (.unknownOpcode 0)).live = false ∧
    hostCall Config.params 0 .clearOutput { machine [99] with halted := true, outq := [1] } =
      some (.done, { machine [99] with halted := true }) := by decide

/-- `1105,1,0`, the shortest endless program (47_host_operations.md R125). -/
theorem test_witness_AStepThatChangesNothingNeverReturns : blocked Config.params (machine [1105, 1, 0]) = false ∧
    stepWith Config.params (machine [1105, 1, 0]) = .next (machine [1105, 1, 0]) := ⟨by decide, rfl⟩

theorem test_witness_RunsLoseAndReorderNoInputAndNoOutput : (machine [3, 9, 4, 9, 99]).live = true ∧
    (resume Config.params 3 [8, 7] (machine [3, 9, 4, 9, 99])).map (fun r => (r.2.inq, r.2.outq)) =
      some ([7], [8]) ∧
    (runStates Config.params 3 ((machine [3, 9, 4, 9, 99]).appendInput [8, 7])).flatMap
      (storedByIn Config.params) = [8] ∧
    (runStates Config.params 3 ((machine [3, 9, 4, 9, 99]).appendInput [8, 7])).flatMap
      (sentByOut Config.params) = [8] := by decide

/-- Section 2.7: the session of `104,7,3,0,104,8,99`, with an `enqueue` after the halt, whose word is dropped. -/
theorem test_witness_RunsLoseAndReorderNoInputAndNoOutput_session :
    (hostSession Config.params 4 [.resume [], .clearOutput, .resume [5], .enqueue [6]]
      (machine [104, 7, 3, 0, 104, 8, 99])).map (fun r => (r.2.inq, r.2.outq)) = some ([], [8]) ∧
    overSession Config.params 4 callInput [.resume [], .clearOutput, .resume [5], .enqueue [6]]
      (machine [104, 7, 3, 0, 104, 8, 99]) = [5] ∧
    overSession Config.params 4 callCleared [.resume [], .clearOutput, .resume [5], .enqueue [6]]
      (machine [104, 7, 3, 0, 104, 8, 99]) = [7] ∧
    (overSession Config.params 4 (callStates Config.params 4) [.resume [], .clearOutput, .resume [5], .enqueue [6]]
      (machine [104, 7, 3, 0, 104, 8, 99])).flatMap (sentByOut Config.params) = [7, 8] := by decide

/-- The second push is not consumed, the third never made. -/
theorem test_witness_PushesDuringARunAreAsIfQueuedBefore :
    (resumePushed { Config.params with hostPushDuringRun := true } [[5], [6], [], [7]] []
      (machine [3, 9, 4, 9, 99])).map (fun r => (r.2.inq, r.2.outq)) = some ([6], [5]) ∧
    Config.params.hostPushDuringRun = false := by decide

theorem test_witness_EverySessionKeepsTheInvariants : construct [99] = some (machine [99]) ∧
    hostSession Config.params 1 [.resume []] (machine [99]) =
      some ([.resumed .halted], { machine [99] with halted := true }) ∧
    hostSession Config.params 1 [.isHalted] { machine [99] with halted := true } =
      some ([.haltedFlag true], { machine [99] with halted := true }) := by decide

/-- Operands whose exact sum, product and adjusted base are just inside and just outside the word range. -/
theorem test_witness_ArithOverflowExistsOnlyUnderFault :
    faultAfter (machine [0]) = some ⟨.unknownOpcode 0, 0, some 0⟩ ∧
    readOperand operandState 1 ⟨.immediate, 9223372036854775807⟩ = .ok 9223372036854775807 ∧
    readOperand operandState 2 ⟨.immediate, 1⟩ = .ok 1 ∧ writeAddress operandState 3 ⟨.position, 0⟩ = .ok 0 ∧
    (next (execWith .fault (.add ⟨.immediate, 9223372036854775807⟩ ⟨.immediate, 0⟩ ⟨.position, 0⟩)
      operandState)).map (·.fault) = some none ∧
    (next (execWith .fault (.add ⟨.immediate, 9223372036854775807⟩ ⟨.immediate, 1⟩ ⟨.position, 0⟩)
      operandState)).bind (·.fault) = some ⟨.arithOverflow 9223372036854775808, 0, some 0⟩ ∧
    firstOperandFault operandState 1
      (operandRoles (.mul ⟨.immediate, 9223372036854775807⟩ ⟨.immediate, 2⟩ ⟨.position, -1⟩)) =
      some (.addressFault (.operand 3) (-1)) := by decide

theorem test_witness_OverflowFaultModelRefinesWrap :
    (resume { Config.params with overflow := .fault } 2 [] (machine [1101, 2, 3, 0, 99])).map (·.1) =
      some .halted := by decide

end Sys2Proof.Tests
end

/-! # State (10_state.md): what each effect does to each element, said once -/

section

namespace Sys2Proof.Machine

variable {policy : OverflowPolicy} {p : Params} {s t : State} {i : Instr}

/-! ## The elements under an effect -/

/-- `HALTED` is set by `hlt` alone; nothing else of the status changes (R17, R18). -/
theorem Effect.status_cases (h : Effect policy s i t) :
    i = .hlt ∧ t = { s with halted := true } ∨ SameStatus s t := by
  cases h with
  | hlt => exact .inl ⟨rfl, rfl⟩
  | _ => exact .inr ⟨rfl, rfl, rfl⟩

theorem Effect.rb_cases (h : Effect policy s i t) :
    t.rb = s.rb ∨
      ∃ a v, i = .arb a ∧ readOperand s 1 a = .ok v ∧ t.rb = wrap64 (s.rb.toInt + v.toInt) := by
  cases h with
  | arb ha hr => exact .inr ⟨_, _, rfl, ha, narrow_ok hr⟩
  | _ => exact .inl rfl

/-- Memory and `HWM` are as before, or changed by one write at the resolved destination (R12, R14). -/
theorem Effect.memory_cases (h : Effect policy s i t) :
    t.mem = s.mem ∧ t.hwm = s.hwm ∨
      ∃ k o d v, destinationOf i = some (k, o) ∧ writeAddress s k o = .ok d ∧
        t.mem = s.mem.write d v ∧ t.hwm = max s.hwm (d + 1) := by
  cases h with
  | add _ _ hd | mul _ _ hd | lt _ _ hd | eq _ _ hd | inpPop hd =>
    exact .inr ⟨_, _, _, _, rfl, hd, rfl, rfl⟩
  | _ => exact .inl ⟨rfl, rfl⟩

theorem Effect.inq_cases (h : Effect policy s i t) :
    t.inq = s.inq ∨
      ∃ v o d, s.inq = v :: t.inq ∧ i = .inp o ∧ writeAddress s 1 o = .ok d ∧ t.mem.read d = v := by
  cases h with
  | inpPop hd hq => exact .inr ⟨_, _, _, hq, rfl, hd, read_write_same ..⟩
  | _ => exact .inl rfl

theorem Effect.outq_cases (h : Effect policy s i t) :
    t.outq = s.outq ∨ ∃ v a, t.outq = s.outq ++ [v] ∧ i = .out a ∧ readOperand s 1 a = .ok v := by
  cases h with
  | out ha => exact .inr ⟨_, _, rfl, rfl, ha⟩
  | _ => exact .inl rfl

/-! ## The elements under a step -/

/-- A step has the effect of the instruction at `IP`, or changes the status alone. -/
theorem stepWith_effect_or_status (h : stepWith p s = .next t) :
    (∃ i, fetchInstr p.strayDigits s = .ok i ∧ Effect p.overflow s i t) ∨
      ∃ halted implicit fault, t = { s with halted := halted, haltImplicit := implicit, fault := fault } := by
  obtain ⟨-, ⟨-, rfl⟩ | ⟨-, -, rfl⟩ | ⟨-, c, rfl, -⟩ | ⟨-, i, hi, he⟩⟩ := stepWith_effects h
  · exact .inr ⟨_, _, _, rfl⟩
  · exact .inr ⟨_, _, _, rfl⟩
  · exact .inr ⟨_, _, _, rfl⟩
  · exact .inl ⟨i, hi, he⟩

/-- `stepWith_effect_or_status` at the spec's parameter values. -/
theorem step_effect_or_status (h : step s = .next t) :
    (∃ i, fetchInstr .fault s = .ok i ∧ Effect .wrap s i t) ∨
      ∃ halted implicit fault, t = { s with halted := halted, haltImplicit := implicit, fault := fault } :=
  stepWith_effect_or_status ((stepWith_params s).trans h)

/-- `Effect.memory_cases` for a whole step. -/
theorem stepWith_memory_cases (h : stepWith p s = .next t) :
    t.mem = s.mem ∧ t.hwm = s.hwm ∨
      ∃ i k o d v, fetchInstr p.strayDigits s = .ok i ∧ destinationOf i = some (k, o) ∧
        writeAddress s k o = .ok d ∧ t.mem = s.mem.write d v ∧ t.hwm = max s.hwm (d + 1) := by
  rcases stepWith_effect_or_status h with ⟨i, hi, he⟩ | ⟨_, _, _, rfl⟩
  · rcases he.memory_cases with hsame | ⟨k, o, d, v, hw⟩
    · exact .inl hsame
    · exact .inr ⟨i, k, o, d, v, hi, hw⟩
  · exact .inl ⟨rfl, rfl⟩

theorem storedWord_of_write {d : Nat} {v : Word} (hm : t.mem = s.mem.write d v)
    (hh : t.hwm = max s.hwm (d + 1)) : StoredWord s t d v :=
  ⟨by rw [hm, read_write_same], fun a ha => by rw [hm, read_write_other _ _ ha], hh⟩

/-- No step lowers `HWM` (R14). -/
theorem stepWith_hwm_le (h : stepWith p s = .next t) : s.hwm ≤ t.hwm := by
  rcases stepWith_memory_cases h with ⟨-, hh⟩ | ⟨_, _, _, d, _, -, -, -, -, hh⟩ <;> omega

/-- Only a live machine has a step (R17). -/
theorem live_of_stepWith (h : stepWith p s = .next t) : s.live = true := (stepWith_cases h).1

/-! ## The invariant -/

/-- The part of the invariant that speaks of `M` and `HWM` (R12, R14). -/
structure State.MemoryInv (s : State) : Prop where
  memCanonical : s.mem.wf
  unwrittenReadZero : ∀ a, s.hwm ≤ a → s.mem.read a = 0
  hwmInRange : s.hwm ≤ Config.addrMax + 1

theorem State.Inv.memoryInv (h : s.Inv) : s.MemoryInv :=
  ⟨h.memCanonical, h.unwrittenReadZero, h.hwmInRange⟩

/-- On a live machine the rest of the invariant is that `HALT_IMPLICIT` is clear. -/
theorem inv_iff_of_live (hl : s.live = true) : s.Inv ↔ s.MemoryInv ∧ s.haltImplicit = false := by
  obtain ⟨hh, hf⟩ := (live_iff s).1 hl
  constructor
  · intro h
    refine ⟨h.memoryInv, ?_⟩
    by_contra hi
    have := h.implicitHaltHalts (by simpa using hi)
    rw [hh] at this; cases this
  · rintro ⟨hm, hi⟩
    exact ⟨hm.memCanonical, hm.unwrittenReadZero, hm.hwmInRange, by simp [hf], by simp [hi], by simp [hh],
      by simp [hf], by simp [hf]⟩

/-- A write inside the address space keeps the invariant of the memory. -/
theorem State.MemoryInv.write {d : Nat} {v : Word} (h : s.MemoryInv) (hd : d ≤ Config.addrMax)
    (hm : t.mem = s.mem.write d v) (hh : t.hwm = max s.hwm (d + 1)) : t.MemoryInv where
  memCanonical := hm ▸ write_wf d v h.memCanonical
  unwrittenReadZero a ha := by
    rw [hm, read_write_other _ _ (by omega)]
    exact h.unwrittenReadZero a (by omega)
  hwmInRange := by
    have := h.hwmInRange
    omega

theorem stepWith_memoryInv (h : s.MemoryInv) (hs : stepWith p s = .next t) : t.MemoryInv := by
  rcases stepWith_memory_cases hs with ⟨hm, hh⟩ | ⟨_, _, _, d, v, -, -, hd, hm, hh⟩
  · exact ⟨hm ▸ h.memCanonical, hm ▸ hh ▸ h.unwrittenReadZero, hh ▸ h.hwmInRange⟩
  · exact h.write (writeAddress_le hd) hm hh

/-- Fault entry on a live machine keeps the invariant, where it records the word that R148 asks for. -/
theorem State.Inv.raise {c : FaultCause} (h : s.Inv) (hl : s.live = true)
    (hw : faultWord s c = if s.ip.toInt < 0 then none else some s.opcodeWord) : (s.raise c).Inv := by
  obtain ⟨hm, hi⟩ := (inv_iff_of_live hl).1 h
  have hh := ((live_iff s).1 hl).1
  exact ⟨hm.memCanonical, hm.unwrittenReadZero, hm.hwmInRange, by simp [hh], by simp [hi], by simp [hh],
    fun r hr => by cases hr; rfl, fun r hr => by cases hr; exact hw⟩

/-- A halt of a live machine keeps the invariant, where it sets `HALT_IMPLICIT` exactly at `HWM` (R17, R72). -/
theorem State.Inv.halt {implicit : Bool} (h : s.Inv) (hl : s.live = true)
    (hi : implicit = true ↔ (s.hwm : Int) ≤ s.ip.toInt) :
    { s with halted := true, haltImplicit := implicit }.Inv := by
  have hf := ((live_iff s).1 hl).2
  exact ⟨h.memCanonical, h.unwrittenReadZero, h.hwmInRange, fun _ => hf, fun _ => rfl, fun _ => hi,
    h.faultRecordsIp, h.faultRecordsWord⟩

theorem State.Inv.step (h : s.Inv) (hs : stepWith p s = .next t) : t.Inv := by
  have hm := stepWith_memoryInv h.memoryInv hs
  obtain ⟨hl, ⟨hip, rfl⟩ | ⟨hip, hend, rfl⟩ | ⟨hf, c, rfl, hw⟩ | ⟨hf, i, -, he⟩⟩ := stepWith_effects hs
  · exact h.raise hl (by simp [hip, faultWord])
  · have : (s.hwm : Int) ≤ s.ip.toInt := by simp only [State.ipAddr] at hend; omega
    exact h.halt hl (by simp [this])
  · exact h.raise hl (by rw [hw, if_neg (not_lt.2 hf.2.1)])
  · have hi := ((inv_iff_of_live hl).1 h).2
    obtain ⟨hh, hn⟩ := (live_iff s).1 hl
    rcases he.status_cases with ⟨-, rfl⟩ | ⟨hhalted, himplicit, hfault⟩
    · have hlt : s.ip.toInt < s.hwm := by rw [fetches_ipAddr hf]; exact_mod_cast hf.2.2
      exact h.halt hl (by simp [hi, hlt])
    · exact (inv_iff_of_live ((live_iff t).2 ⟨hhalted.trans hh, hfault.trans hn⟩)).2
        ⟨hm, himplicit.trans hi⟩

/-- Settles O44: a fault, a halt or an effect, each keeps the invariant. -/
theorem everyStepKeepsTheInvariant : Obligations.EveryStepKeepsTheInvariant :=
  fun _ _ _ h hs => h.step hs

/-! ## Which instruction changes which element -/

/-- Settles O38: an effect other than that of `arb`, a halt and a fault leave `RB` alone. -/
theorem onlyArbChangesTheRelativeBase : Obligations.OnlyArbChangesTheRelativeBase := by
  intro s t h hne
  rcases step_effect_or_status h with ⟨i, hi, he⟩ | ⟨_, _, _, rfl⟩
  · rcases he.rb_cases with hrb | ⟨a, v, rfl, ha, hrb⟩
    · exact absurd hrb hne
    · exact ⟨a, v, hi, ha, hrb⟩
  · exact absurd rfl hne

/-- Settles O39: the memory changes by an effect alone, and there by one write. -/
theorem onlyDestinationsChangeMemory : Obligations.OnlyDestinationsChangeMemory := by
  intro s t h
  rcases stepWith_memory_cases ((stepWith_params s).trans h) with ⟨hm, hh⟩ | ⟨i, k, o, d, v, hi, hk, hd, hm, hh⟩
  · exact .inl ⟨fun a => by rw [hm], hh⟩
  · exact .inr ⟨i, k, o, d, v, hi, hk, hd, storedWord_of_write hm hh⟩

/-- Settles O40: the queues change by an effect alone, that of `in` or of `out`. -/
theorem stepPopsAndAppendsAtMostOneWord : Obligations.StepPopsAndAppendsAtMostOneWord := by
  intro s t h
  rcases step_effect_or_status h with ⟨i, hi, he⟩ | ⟨_, _, _, rfl⟩
  · constructor
    · rcases he.inq_cases with hq | ⟨v, o, d, hq, rfl, hd, hv⟩
      · exact .inl hq
      · exact .inr ⟨v, o, d, hq, hi, hd, hv⟩
    · rcases he.outq_cases with hq | ⟨v, a, hq, rfl, ha⟩
      · exact .inl hq
      · exact .inr ⟨v, a, hq, hi, ha⟩
  · exact ⟨.inl rfl, .inl rfl⟩

/-- Settles O41: a live machine is not halted, so what left `HALTED` true is one of the two halts. -/
theorem onlyHaltsSetHalted : Obligations.OnlyHaltsSetHalted := by
  intro s t h ht
  obtain ⟨hl, hcases⟩ := stepWith_effects ((stepWith_params s).trans h)
  have running : t.halted ≠ s.halted := by rw [ht, ((live_iff s).1 hl).1]; decide
  obtain ⟨-, rfl⟩ | ⟨hip, hend, rfl⟩ | ⟨-, c, rfl, -⟩ | ⟨-, i, hi, he⟩ := hcases
  · exact absurd rfl running
  · exact .inr ⟨hip, by simp only [State.ipAddr] at hend; omega, rfl⟩
  · exact absurd rfl running
  · rcases he.status_cases with ⟨rfl, rfl⟩ | hsame
    · exact .inl ⟨hi, rfl⟩
    · exact absurd hsame.halted running

/-! ## What a step does not see of the queues -/

/-- The state with other contents of `INQ` and `OUTQ`. -/
def State.withQueues (s : State) (inq outq : List Word) : State := { s with inq := inq, outq := outq }

variable {inq outq values : List Word}

@[simp] theorem withQueues_ip : (s.withQueues inq outq).ip = s.ip := rfl
@[simp] theorem withQueues_hwm : (s.withQueues inq outq).hwm = s.hwm := rfl
@[simp] theorem withQueues_ipAddr : (s.withQueues inq outq).ipAddr = s.ipAddr := rfl

@[simp] theorem live_withQueues : (s.withQueues inq outq).live = s.live := rfl

theorem fetches_withQueues : (s.withQueues inq outq).fetches ↔ s.fetches := Iff.rfl

@[simp] theorem fetchInstr_withQueues (stray : StrayDigits) :
    fetchInstr stray (s.withQueues inq outq) = fetchInstr stray s := rfl

theorem firstOperandFault_withQueues (k : Nat) (ops : List (Role × Operand)) :
    firstOperandFault (s.withQueues inq outq) k ops = firstOperandFault s k ops := by
  induction ops generalizing k with
  | nil => rfl
  | cons ro ops ih =>
    simp only [firstOperandFault, ih]
    rfl

@[simp] theorem raise_withQueues (c : FaultCause) :
    (s.withQueues inq outq).raise c = (s.raise c).withQueues inq outq := rfl

@[simp] theorem haltImplicitly_withQueues :
    (s.withQueues inq outq).haltImplicitly = s.haltImplicitly.withQueues inq outq := rfl

/-- What an instruction raises does not depend on the queues. -/
theorem Raises.withQueues (h : Raises policy s i c) : Raises policy (s.withQueues inq outq) i c := by
  cases h with
  | operand h => exact .operand ((firstOperandFault_withQueues _ _).trans h)
  | addOverflow ha hb hd hp hr => exact .addOverflow ha hb hd hp hr
  | mulOverflow ha hb hd hp hr => exact .mulOverflow ha hb hd hp hr
  | arbOverflow ha hp hr => exact .arbOverflow ha hp hr

/-- An effect takes the front of `INQ` and appends to `OUTQ`, whatever stands behind them; only an `in` on an
empty queue sees where `INQ` ends. -/
theorem Effect.withQueues (h : Effect policy s i t)
    (hv : values = [] ∨ ¬ (s.inq = [] ∧ ∃ o d, i = .inp o ∧ writeAddress s 1 o = .ok d)) :
    ∃ out, t.outq = s.outq ++ out ∧
      ∀ q, Effect policy (s.withQueues (s.inq ++ values) q) i
        (t.withQueues (t.inq ++ values) (q ++ out)) := by
  have same : ∀ {u : State}, u.outq = s.outq →
      (∀ q, Effect policy (s.withQueues (s.inq ++ values) q) i (u.withQueues (u.inq ++ values) q)) →
      ∃ out, u.outq = s.outq ++ out ∧ ∀ q, Effect policy (s.withQueues (s.inq ++ values) q) i
        (u.withQueues (u.inq ++ values) (q ++ out)) := by
    intro u hu he
    exact ⟨[], by simpa using hu, by simpa using he⟩
  cases h with
  | add ha hb hd hr => exact same rfl fun _ => .add ha hb hd hr
  | mul ha hb hd hr => exact same rfl fun _ => .mul ha hb hd hr
  | inpSuspend hd hq =>
    have hnil : values = [] := hv.resolve_right fun h => h ⟨hq, _, _, rfl, hd⟩
    exact same rfl fun _ => .inpSuspend hd (by simp [State.withQueues, hq, hnil])
  | inpPop hd hq => exact same rfl fun _ => .inpPop hd (by simp [State.withQueues, hq])
  | out ha => exact ⟨[_], rfl, fun _ => .out ha⟩
  | jtTaken hc hd hx => exact same rfl fun _ => .jtTaken hc hd hx
  | jtNot hc hd hx => exact same rfl fun _ => .jtNot hc hd hx
  | jfTaken hc hd hx => exact same rfl fun _ => .jfTaken hc hd hx
  | jfNot hc hd hx => exact same rfl fun _ => .jfNot hc hd hx
  | lt ha hb hd => exact same rfl fun _ => .lt ha hb hd
  | eq ha hb hd => exact same rfl fun _ => .eq ha hb hd
  | arb ha hr => exact same rfl fun _ => .arb ha hr
  | hlt => exact same rfl fun _ => .hlt

/-- The two-run form of a step: with words behind `INQ` and another `OUTQ` it does the same and appends the same
words; only a blocked step sees where `INQ` ends (R15, R16). -/
theorem stepWith_withQueues (h : stepWith p s = .next t) (hv : values = [] ∨ blocked p s = false) :
    ∃ out, t.outq = s.outq ++ out ∧
      ∀ q, stepWith p (s.withQueues (s.inq ++ values) q) =
        .next (t.withQueues (t.inq ++ values) (q ++ out)) := by
  obtain ⟨hl, ⟨hip, rfl⟩ | ⟨hip, hend, rfl⟩ | ⟨hf, hrun⟩⟩ := stepWith_cases h
  · refine ⟨[], by simp, fun q => ?_⟩
    rw [stepWith_live (by simpa using hl)]
    simp [hip]
  · refine ⟨[], by simp, fun q => ?_⟩
    rw [stepWith_live (by simpa using hl)]
    simp [not_lt.2 hip, hend]
  simp only [stepWith_fetches (fetches_withQueues.2 hf), fetchInstr_withQueues]
  obtain ⟨c, hc, rfl⟩ | ⟨i, hi, hx⟩ := hrun
  · exact ⟨[], by simp, fun q => by simp [hc]⟩
  simp only [hi]
  rcases execWith_next hx with he | ⟨c, rfl, hr⟩
  · have unblocked : values = [] ∨ ¬ (s.inq = [] ∧ ∃ o d, i = .inp o ∧ writeAddress s 1 o = .ok d) := by
      refine hv.imp_right fun hb ⟨hq, o, d, ho, hd⟩ => ?_
      rw [blocked_iff.2 ⟨hf, hq, o, d, ho ▸ hi, hd⟩] at hb
      cases hb
    obtain ⟨out, hout, hsame⟩ := he.withQueues unblocked
    exact ⟨out, hout, fun q => execWith_of_effect (hsame q)⟩
  · exact ⟨[], by simp, fun q => by simp [execWith_of_raises hr.withQueues]⟩

/-- Settles O42: the two-run form of the step with nothing appended to `INQ`. -/
theorem outputIsNeverRead : Obligations.OutputIsNeverRead := by
  intro p s t q h
  obtain ⟨out, hout, hsame⟩ := stepWith_withQueues (values := []) h (.inl rfl)
  exact ⟨out, hout, by simpa [State.withQueues] using hsame q⟩

/-- Settles O43: the two-run form of the step with `OUTQ` as it is. -/
theorem appendedInputIsNotSeenUnlessBlocked : Obligations.AppendedInputIsNotSeenUnlessBlocked := by
  intro p s t values hb h
  obtain ⟨out, hout, hsame⟩ := stepWith_withQueues (values := values) h (.inr hb)
  have := hsame s.outq
  rw [← hout] at this
  exact this

/-! ## Host operations and sessions -/

section

variable {P : State → Prop} {fuel : Nat}

/-- A property that every step, every append to `INQ` and the clearing of `OUTQ` keep is kept by every host
operation. -/
theorem hostCall_keeps (hstep : ∀ s t, P s → stepWith p s = .next t → P t)
    (happend : ∀ s values, P s → P (s.appendInput values)) (hclear : ∀ s, P s → P (clearOutput s))
    {call : HostCall} {reply : HostReply} (hs : P s) (h : hostCall p fuel call s = some (reply, t)) : P t := by
  cases call with
  | enqueue values =>
    cases h
    cases hl : s.live with
    | true => rw [enqueue_live hl]; exact happend s values hs
    | false => rw [enqueue_stopped hl]; exact hs
  | resume values =>
    obtain ⟨r, -, hr⟩ := hostCall_resume h
    rcases resume_cases hr with ⟨_, -, -, rfl⟩ | ⟨-, -, -, rfl⟩ | ⟨-, hrun⟩
    · exact hs
    · exact hs
    · exact runLoop_keeps hstep (happend s values hs) hrun
  | readOutput => cases h; exact hs
  | clearOutput => cases h; exact hclear s hs
  | isHalted => cases h; exact hs

theorem hostSession_cons {call : HostCall} {later : List HostCall} {replies : List HostReply}
    (h : hostSession p fuel (call :: later) s = some (replies, t)) :
    ∃ reply u replies', hostCall p fuel call s = some (reply, u) ∧
      hostSession p fuel later u = some (replies', t) ∧ replies = reply :: replies' := by
  rw [hostSession] at h
  split at h
  · cases h
  · next reply u hu =>
    obtain ⟨⟨replies', t'⟩, hr, heq⟩ := Option.map_eq_some_iff.1 h
    cases heq
    exact ⟨reply, u, replies', hu, hr, rfl⟩

/-- What every host operation keeps, a session keeps. -/
theorem hostSession_keeps
    (hcall : ∀ s t call reply, P s → hostCall p fuel call s = some (reply, t) → P t)
    {calls : List HostCall} {replies : List HostReply} (hs : P s)
    (h : hostSession p fuel calls s = some (replies, t)) : P t := by
  induction calls generalizing s replies with
  | nil => cases h; exact hs
  | cons call later ih =>
    obtain ⟨reply, u, replies', hu, hlater, -⟩ := hostSession_cons h
    exact ih (hcall _ _ _ _ hs hu) hlater

/-- Every operation of a session has one reply (R123). -/
theorem hostSession_replies {calls : List HostCall} {replies : List HostReply}
    (h : hostSession p fuel calls s = some (replies, t)) : replies.length = calls.length := by
  induction calls generalizing s replies with
  | nil => cases h; rfl
  | cons call later ih =>
    obtain ⟨reply, u, replies', -, hlater, rfl⟩ := hostSession_cons h
    simp [ih hlater]

/-- The invariant says nothing of the queues. -/
theorem State.Inv.withQueues (h : s.Inv) : (s.withQueues inq outq).Inv :=
  ⟨h.memCanonical, h.unwrittenReadZero, h.hwmInRange, h.notHaltedAndFaulted, h.implicitHaltHalts,
    h.implicitHaltAtEnd, h.faultRecordsIp, h.faultRecordsWord⟩

theorem State.Inv.hostCall {call : HostCall} {reply : HostReply} (h : s.Inv)
    (hc : hostCall p fuel call s = some (reply, t)) : t.Inv :=
  hostCall_keeps (fun _ _ hs => hs.step) (fun _ _ hs => hs.withQueues) (fun _ hs => hs.withQueues) h hc

theorem hostCall_hwm_le {call : HostCall} {reply : HostReply}
    (h : hostCall p fuel call s = some (reply, t)) : s.hwm ≤ t.hwm :=
  hostCall_keeps (P := fun u => s.hwm ≤ u.hwm) (fun _ _ hs hu => hs.trans (stepWith_hwm_le hu))
    (fun _ _ hs => hs) (fun _ hs => hs) le_rfl h

/-- A stopped machine is left as it is by every operation but `clear_output` (R117, R130, R131). -/
theorem hostCall_stopped {call : HostCall} {reply : HostReply} (hl : s.live = false)
    (h : hostCall p fuel call s = some (reply, t)) :
    t = s ∨ call = .clearOutput ∧ t = clearOutput s := by
  cases call with
  | enqueue values => cases h; exact .inl (enqueue_stopped hl)
  | resume values =>
    obtain ⟨r, -, hr⟩ := hostCall_resume h
    rcases resume_cases hr with ⟨_, -, -, rfl⟩ | ⟨-, -, -, rfl⟩ | ⟨hl', -⟩
    · exact .inl rfl
    · exact .inl rfl
    · rw [hl] at hl'; cases hl'
  | readOutput => cases h; exact .inl rfl
  | clearOutput => cases h; exact .inr ⟨rfl, rfl⟩
  | isHalted => cases h; exact .inl rfl

/-- Over a session a stopped machine keeps `HALTED`, `HALT_IMPLICIT` and `FAULT` (R17, R152). -/
theorem hostSession_stopped {calls : List HostCall} {replies : List HostReply} (hl : s.live = false)
    (h : hostSession p fuel calls s = some (replies, t)) : SameStatus s t := by
  refine hostSession_keeps (P := SameStatus s) (fun u v call reply hu hc => ?_) ⟨rfl, rfl, rfl⟩ h
  have hlu : u.live = false := by rwa [State.live, hu.halted, hu.fault]
  rcases hostCall_stopped hlu hc with rfl | ⟨-, rfl⟩
  · exact hu
  · exact ⟨hu.halted, hu.haltImplicit, hu.fault⟩

end

/-! ## Construction -/

theorem construct_eq_some {program : List Word} (h : construct program = some s) :
    program.length ≤ Config.addrMax + 1 ∧
      s = { State.reset with mem := Memory.ofWords 0 program, hwm := program.length } := by
  unfold construct at h
  split at h
  · next hn => cases h; exact ⟨hn, rfl⟩
  · cases h

theorem construct_nil : construct [] = some State.reset := rfl

theorem construct_isSome_iff {program : List Word} :
    (construct program).isSome = true ↔ program.length ≤ Config.addrMax + 1 := by
  unfold construct
  split <;> simp [*]

theorem construct_inv {program : List Word} (h : construct program = some s) : s.Inv := by
  obtain ⟨hn, rfl⟩ := construct_eq_some h
  refine (inv_iff_of_live rfl).2 ⟨⟨ofWords_wf 0 program, fun a ha => ?_, hn⟩, rfl⟩
  have ha : program.length ≤ a := ha
  simp [read_ofWords, List.getElem?_eq_none ha]

/-! ## Statements about construction and the host operations -/

/-- Settles O46: steps keep the invariant, and it does not speak of the queues, which the host changes. -/
theorem hostOperationsKeepTheInvariant : Obligations.HostOperationsKeepTheInvariant :=
  ⟨fun _ _ h => construct_inv h, fun _ _ _ _ _ _ hs h => hs.hostCall h⟩

/-- Settles O47: `HWM` rises only where the maximum of R14 is one plus the destination. -/
theorem highWaterMarkNeverDecreases : Obligations.HighWaterMarkNeverDecreases := by
  refine ⟨fun p s t h => ⟨stepWith_hwm_le h, ?_⟩, fun _ _ _ _ _ _ h => hostCall_hwm_le h⟩
  rcases stepWith_memory_cases h with ⟨-, hh⟩ | ⟨i, k, o, d, v, hi, hk, hd, -, hh⟩
  · exact .inl hh
  · by_cases hcover : d < s.hwm
    · exact .inl (by omega)
    · exact .inr ⟨i, k, o, d, hi, hk, hd, by omega⟩

/-- Settles O48: the constructed state is the reset state with the program seeded at 0. -/
theorem constructionGivesTheResetValues : Obligations.ConstructionGivesTheResetValues := by
  refine fun program => ⟨construct_isSome_iff, construct_nil, fun s h => ?_⟩
  obtain ⟨-, rfl⟩ := construct_eq_some h
  refine ⟨rfl, rfl, fun a w hw => ?_, fun a ha => ?_, rfl, rfl, rfl, rfl, rfl, rfl⟩
  · simp [read_ofWords, hw]
  · simp [read_ofWords, List.getElem?_eq_none ha]

/-- Settles O54: a step needs a live machine, and so does every operation that is more than a report. -/
theorem stoppedMachineIsFrozen : Obligations.StoppedMachineIsFrozen := by
  refine fun p s hl => ⟨fun t h => ?_, fun fuel call reply t h => ?_⟩
  · rw [live_of_stepWith h] at hl; cases hl
  · rcases hostCall_stopped hl h with rfl | ⟨rfl, rfl⟩
    · exact ⟨rfl, fun _ => rfl⟩
    · exact ⟨rfl, absurd rfl⟩

/-- Settles O58: a session keeps what every host operation keeps. -/
theorem everySessionKeepsTheInvariants : Obligations.EverySessionKeepsTheInvariants := by
  intro p fuel program calls later replies replies' s t u hs ht hu
  refine ⟨?_, hostSession_replies ht, ?_, fun hh => ?_, fun r hr => ?_⟩
  · exact hostSession_keeps (fun _ _ _ _ h hc => h.hostCall hc) (construct_inv hs) ht
  · exact hostSession_keeps (P := fun u => t.hwm ≤ u.hwm)
      (fun _ _ _ _ h hc => h.trans (hostCall_hwm_le hc)) le_rfl hu
  · exact (hostSession_stopped (by simp [State.live, hh]) hu).halted.trans hh
  · exact (hostSession_stopped (by simp [State.live, hr]) hu).fault.trans hr

/-- Settles O45: the reset state is the construction from the empty program. -/
theorem invariantHoldsAtReset : Obligations.InvariantHoldsAtReset := construct_inv construct_nil

end Sys2Proof.Machine

end


/-! # Memory (20_memory.md): what MemRead, MemWrite and the fetch answer -/

section

namespace Sys2Proof.Machine

variable {s t : State} {k d : Nat} {addr : Int} {v : Word} {c : FaultCause}

/-! ## MemWrite and the fetch -/

theorem memWrite_eq : memWrite s k addr v = (checkAddr (.operand k) addr).map (s.store · v) := by
  unfold memWrite; cases checkAddr (.operand k) addr <;> rfl

/-- A MemWrite raises exactly where its address is out of range, and then names that address (R32). -/
theorem memWrite_error_iff :
    memWrite s k addr v = .error c ↔
      ¬ (0 ≤ addr ∧ addr ≤ Config.addrMax) ∧ c = .addressFault (.operand k) addr := by
  rw [memWrite_eq, ← checkAddr_error_iff]
  cases checkAddr (.operand k) addr <;> simp [Except.map]

/-- The inversion of MemWrite: where it answers, the address is in range and the state is the store there. -/
theorem memWrite_ok_iff :
    memWrite s k addr v = .ok t ↔
      0 ≤ addr ∧ addr ≤ Config.addrMax ∧ t = s.store addr.toNat v := by
  rw [memWrite_eq]
  rcases h : checkAddr (.operand k) addr with e | a
  · have := checkAddr_error_iff.1 h
    simp only [Except.map, reduceCtorEq, false_iff]; tauto
  · obtain ⟨h1, h2, rfl⟩ := checkAddr_ok_iff.1 h
    simp [Except.map, h1, h2, eq_comm (a := t)]

/-- The fetch reads the cell that `IP` names (R39). -/
theorem fetchWord_of_ip (hip : s.ip.toInt = d) (hd : d ≤ Config.addrMax) :
    fetchWord s = .ok (s.mem.read d) :=
  memRead_ok_iff.2 ⟨by omega, by omega, by rw [hip, Int.toNat_natCast]⟩

/-! ## Statements about the memory -/

/-- Settles O18: the inversion lemmas of MemRead, and that an unlisted cell reads 0. -/
theorem memReadIsRangeChecked : Obligations.MemReadIsRangeChecked := by
  refine fun s kind addr => ⟨fun h => ?_, fun h0 hmax => ?_, read_eq_zero⟩
  · exact memRead_error_iff.2 ⟨by omega, rfl⟩
  · exact memRead_ok_iff.2 ⟨h0, hmax, rfl⟩

/-- Settles O19: a MemWrite in range is a store, which writes one cell and `HWM`. -/
theorem memWriteChangesOneCellAndHwm : Obligations.MemWriteChangesOneCellAndHwm := by
  refine fun s k addr v => ⟨fun h => ?_, fun h0 hmax => ?_⟩
  · exact memWrite_error_iff.2 ⟨by omega, rfl⟩
  · exact ⟨s.store addr.toNat v, memWrite_ok_iff.2 ⟨h0, hmax, rfl⟩, store_storedWord .., rfl⟩

/-- Settles O20: the cells of the gap are not the one written, and by the invariant they read 0 before. -/
theorem cellsBetweenOldAndNewMarkReadZero : Obligations.CellsBetweenOldAndNewMarkReadZero := by
  intro s k d v hs hhwm hd
  obtain ⟨hcell, hothers, hmark⟩ := store_storedWord s d v
  refine ⟨s.store d v, memWrite_of_le hd, by omega, hcell, fun a ha had => ?_⟩
  exact (hothers a (by omega)).trans (hs.unwrittenReadZero a ha)

/-- Settles O21: the fetch reads the cell at `IP`, and the last write there was the store. -/
theorem storeIsSeenByTheNextFetch : Obligations.StoreIsSeenByTheNextFetch := by
  refine ⟨fun s t k d v ip h hip => ?_, fun s a b o x y d ha hb hd hip => ?_⟩
  · obtain ⟨-, hmax, rfl⟩ := memWrite_ok_iff.1 h
    rw [fetchWord_of_ip hip (by omega)]
    simp
  · refine ⟨_, exec_of_effect (.add ha hb hd (narrow_wrap _)), ?_⟩
    rw [fetchWord_of_ip (by simpa using hip) (writeAddress_le hd)]
    simp

end Sys2Proof.Machine

end

/-! # Encoding (30_encoding.md): what decode, encode and the operand modes answer -/

section

namespace Sys2Proof

open Sys2Proof.Machine

variable {stray : StrayDigits} {w : Word} {h : OpcodeWord} {op : Opcode} {i : Instr} {ws rest : List Word}
variable {n N j k : Nat}

/-! ## Digits below a weight -/

theorem digit_mod_pow (hj : j < k) : digit j (n % 10 ^ k) = digit j n := by
  obtain ⟨d, rfl⟩ := Nat.exists_eq_add_of_lt hj
  unfold digit
  rw [add_assoc, pow_add, Nat.mod_mul_right_div_self, Nat.mod_mod_of_dvd _ (dvd_pow_self 10 d.succ_ne_zero)]

/-- The mode of an operand the instruction has is read from the low `N + 2` digits (R52). -/
theorem decodeMode_mod_pow : decodeMode N (n % 10 ^ (N + 2)) k = decodeMode N n k := by
  by_cases hk : k ≤ N
  · have : modeDigit k (n % 10 ^ (N + 2)) = modeDigit k n := digit_mod_pow (by omega)
    simp only [decodeMode, this]
  · rw [decodeMode_beyond hk, decodeMode_beyond hk]

theorem decodeModes_mod_pow : decodeModes op (n % 10 ^ (op.operands + 2)) = decodeModes op n := by
  simp only [decodeModes, decodeMode_mod_pow]

/-- A number no greater than some word's is below 2^63, so its word denotes it. -/
theorem toInt_ofNat_of_le (hn : n ≤ w.toInt.toNat) : (BitVec.ofNat 64 n).toInt = n := by
  have := BitVec.toInt_lt (x := w)
  rw [BitVec.toInt_ofNat', Int.bmod_eq_of_le] <;> omega

/-- The low `N + 2` digits of a word alone have no stray digit, and the same opcode and modes (R61). -/
theorem decodeWord_fault_low_digits (ho : opcodeOf (w.toInt.toNat % 100) = some op) :
    decodeWord .fault (BitVec.ofNat 64 (w.toInt.toNat % 10 ^ (op.operands + 2))) =
      decodeModes op w.toInt.toNat := by
  have hlow := toInt_ofNat_of_le (w := w) (Nat.mod_le w.toInt.toNat (10 ^ (op.operands + 2)))
  have hdvd : 100 ∣ 10 ^ (op.operands + 2) := Dvd.intro_left _ (pow_add 10 _ 2).symm
  rw [decodeWord_modes (op := op), hlow, Int.toNat_natCast, decodeModes_mod_pow]
  · omega
  · rwa [hlow, Int.toNat_natCast, Nat.mod_mod_of_dvd _ hdvd]
  · intro _
    rw [hlow, Int.toNat_natCast]
    exact Nat.div_eq_of_lt (Nat.mod_lt _ (by positivity))

/-! ## The legal opcode words -/

/-- With `STRAY_DIGITS` = `fault` decode of a word and `OpcodeWord.number` are inverse to each other, between the
legal words and the legal headers (R52, R63). -/
theorem decodeWord_fault_ok_iff :
    decodeWord .fault w = .ok h ↔ h.legal = true ∧ 0 ≤ w.toInt ∧ w.toInt.toNat = h.number := by
  constructor
  · exact fun hd => ⟨legal_of_decodeWord hd, (decodeWord_ok hd).1, number_of_decodeWord hd⟩
  · rintro ⟨hl, hw, hn⟩
    rw [← ofNat_toNat_toInt hw, hn]
    exact decodeWord_number .fault h hl

/-- The modes in the order of their digits (R55). -/
def modes : List Mode := [.position, .immediate, .relative]

theorem mem_modes (m : Mode) : m ∈ modes := by cases m <;> decide

/-- The legal headers of an opcode, by rising number. -/
def legalHeaders (op : Opcode) : List OpcodeWord :=
  (modes.flatMap fun m3 => modes.flatMap fun m2 => modes.map fun m1 => ⟨op, m1, m2, m3⟩).filter (·.legal)

theorem mem_legalHeaders : h ∈ legalHeaders op ↔ h.legal = true ∧ h.opcode = op := by
  obtain ⟨op', m1, m2, m3⟩ := h
  simp [legalHeaders, mem_modes, and_comm, eq_comm (a := op)]

/-- The table of R65 is the list of the numbers of the legal headers. -/
theorem legalOpcodeWords_eq (op : Opcode) : legalOpcodeWords op = (legalHeaders op).map (·.number) := by
  cases op <;> rfl

theorem mem_legalOpcodeWords :
    n ∈ legalOpcodeWords op ↔ ∃ h : OpcodeWord, h.legal = true ∧ h.opcode = op ∧ h.number = n := by
  simp [legalOpcodeWords_eq, mem_legalHeaders, and_assoc]

theorem exists_decodeWord_iff :
    (∃ h, decodeWord .fault w = .ok h ∧ h.opcode = op) ↔
      0 ≤ w.toInt ∧ w.toInt.toNat ∈ legalOpcodeWords op := by
  simp only [decodeWord_fault_ok_iff, mem_legalOpcodeWords]
  constructor
  · rintro ⟨h, ⟨hl, hw, hn⟩, hop⟩
    exact ⟨hw, h, hl, hop, hn.symm⟩
  · rintro ⟨hw, h, hl, hop, hn⟩
    exact ⟨h, ⟨hl, hw, hn.symm⟩, hop⟩

/-! ## Operand words -/

theorem map_word_operands_instr (h : OpcodeWord) (p1 p2 p3 : Word) :
    (h.instr p1 p2 p3).operands.map (·.word) = [p1, p2, p3].take h.opcode.operands := by
  obtain ⟨op, m1, m2, m3⟩ := h
  cases op <;> rfl

/-- An instruction's own operand words are what its header takes (R50). -/
theorem takeOperands_headerOf (i : Instr) (rest : List Word) :
    takeOperands (headerOf i) (i.operands.map (·.word) ++ rest) = .ok (i, rest) := by
  cases i <;> rfl

/-- The inversion of `takeOperands`: the words taken are the operand words of the instruction they complete. -/
theorem takeOperands_ok (ht : takeOperands h ws = .ok (i, rest)) :
    (∃ p1 p2 p3, i = h.instr p1 p2 p3) ∧ ws = i.operands.map (·.word) ++ rest := by
  unfold takeOperands at ht
  split at ht <;> cases ht
  all_goals
    next hN =>
    refine ⟨⟨_, _, _, rfl⟩, ?_⟩
    rw [map_word_operands_instr, hN]
    rfl

/-! ## Sequences of words -/

theorem decode_cons (hd : decodeWord stray w = .ok h) : decode stray (w :: ws) = takeOperands h ws := by
  simp [decode, hd]

/-- The inversion of `decode`: a legal opcode word, then its operand words. -/
theorem decode_ok (hd : decode stray ws = .ok (i, rest)) :
    ∃ w h ws', ws = w :: ws' ∧ decodeWord stray w = .ok h ∧ takeOperands h ws' = .ok (i, rest) := by
  cases ws with
  | nil => cases hd
  | cons w ws =>
    rcases hw : decodeWord stray w with c | h
    · simp [decode, hw] at hd
    · exact ⟨w, h, ws, rfl, hw, decode_cons hw ▸ hd⟩

/-- A legal word is the opcode word of every instruction it decodes to (R51, R63). -/
theorem ofNat_opcodeNumber_instr (hd : decodeWord .fault w = .ok h) (p1 p2 p3 : Word) :
    BitVec.ofNat 64 (h.instr p1 p2 p3).opcodeNumber = w := by
  obtain ⟨hl, hw, hn⟩ := decodeWord_fault_ok_iff.1 hd
  rw [opcodeNumber_eq, headerOf_instr_eq hl, ← hn, ofNat_toNat_toInt hw]

/-! ## Statements about decode and encode -/

/-- Settles O2: the opcode word decodes to the header, which takes exactly the operand words. -/
theorem decodingAnEncodedInstructionGivesItBack : Obligations.DecodingAnEncodedInstructionGivesItBack :=
  fun stray i rest hi =>
    (decode_cons (decodeWord_opcodeNumber stray hi)).trans (takeOperands_headerOf i rest)

/-- Settles O3: the word of a legal header is its number, and the words taken are the operand words. -/
theorem encodingADecodedInstructionGivesItsWordsBack :
    Obligations.EncodingADecodedInstructionGivesItsWordsBack := by
  intro ws rest i hd
  obtain ⟨w, h, ws', rfl, hw, ht⟩ := decode_ok hd
  obtain ⟨⟨p1, p2, p3, rfl⟩, rfl⟩ := takeOperands_ok ht
  refine ⟨instr_wellFormed (legal_of_decodeWord hw) .., ?_⟩
  rw [encode, ofNat_opcodeNumber_instr hw, List.cons_append]

/-- Settles O4: the legal words are the numbers of the legal headers, and what is not accepted faults. -/
theorem legalOpcodeWordsAreExactlyTheNinetyNine : Obligations.LegalOpcodeWordsAreExactlyTheNinetyNine := by
  refine ⟨fun w op => exists_decodeWord_iff, by decide, rfl, fun s hs hno => ?_⟩
  rcases hd : decodeWord .fault s.opcodeWord with c | h
  · exact ⟨c, step_decodeWord_error hs hd⟩
  · exact absurd (exists_decodeWord_iff.1 ⟨h, hd, rfl⟩) (hno h.opcode)

/-- Settles O5: under `ignore` the mode checks read the low `N + 2` digits only. -/
theorem strayDigitsFaultOrAreIgnored : Obligations.StrayDigitsFaultOrAreIgnored := by
  refine ⟨fun s op hs hw ho hstray => ?_, fun w op hw ho => ?_⟩
  · exact step_decodeWord_error hs (decodeWord_stray hw ho hstray)
  · rw [decodeWord_fault_low_digits ho, decodeWord_modes hw ho (by simp)]

/-- Settles O1: each written-out word is decoded by evaluation. -/
theorem writtenOutWordsDecodeToTheirInstruction : Obligations.WrittenOutWordsDecodeToTheirInstruction := by
  unfold Obligations.WrittenOutWordsDecodeToTheirInstruction
  decide

/-- Settles O6: the sign is the first thing that decode tests. -/
theorem negativeOpcodeWordFaults : Obligations.NegativeOpcodeWordFaults :=
  fun _ hs hw => step_decodeWord_error hs (decodeWord_negative .fault hw)

end Sys2Proof

namespace Sys2Proof.Machine

variable {s : State} {h : OpcodeWord} {n k d : Nat} {c : FaultCause} {w v : Word}

/-! ## Fetching the operand words -/

theorem operandWord_above (hk : k ≤ n) (ha : Config.addrMax < s.ip.toInt + k) :
    operandWord s n k = .error (.addressFault .operandFetch (s.ip.toInt + k)) := by
  rw [operandWord, if_pos hk]
  exact memRead_error_iff.2 ⟨by omega, rfl⟩

theorem operandWord_within (hip : 0 ≤ s.ip.toInt) (ha : s.ip.toInt + k ≤ Config.addrMax) :
    ∃ v, operandWord s n k = .ok v := by
  by_cases hk : k ≤ n
  · rw [operandWord, if_pos hk]
    exact ⟨_, memRead_ok_iff.2 ⟨by omega, ha, rfl⟩⟩
  · exact ⟨0, operandWord_beyond hk⟩

/-- The first operand word that faults stops the fetch (40_execution_cycle.md R75). -/
theorem fetchOperands_of_error (h1 : 1 ≤ k) (hk : k ≤ h.opcode.operands)
    (hc : operandWord s h.opcode.operands k = .error c)
    (hlt : ∀ j, 1 ≤ j → j < k → ∃ v, operandWord s h.opcode.operands j = .ok v) :
    fetchOperands s h = .error c := by
  have := operands_le h.opcode
  obtain rfl | rfl | rfl : k = 1 ∨ k = 2 ∨ k = 3 := by omega
  · rw [fetchOperands, hc]; rfl
  · obtain ⟨p1, hp1⟩ := hlt 1 le_rfl (by omega)
    rw [fetchOperands, hp1, hc]; rfl
  · obtain ⟨p1, hp1⟩ := hlt 1 le_rfl (by omega)
    obtain ⟨p2, hp2⟩ := hlt 2 (by omega) (by omega)
    rw [fetchOperands, hp1, hp2, hc]; rfl

/-- Settles O13: the words before operand word `k` are read, and that one is above `ADDR_MAX`. -/
theorem operandWordAboveAddrMaxFaults : Obligations.OperandWordAboveAddrMaxFaults := by
  intro s h k hs hd h1 hk habove hwithin
  refine step_fetchInstr_error hs ?_
  rw [fetchInstr_eq hs.2.1, hd]
  exact fetchOperands_of_error h1 hk (operandWord_above hk habove)
    fun j hj hjk => operandWord_within hs.2.1 (hwithin j hj hjk)

/-! ## Operands by mode -/

theorem toInt_le_addrMax (w : Word) : w.toInt ≤ Config.addrMax := (toInt_range w).2

@[simp] theorem readOperand_position :
    readOperand s k ⟨.position, w⟩ = memRead s (.operand k) w.toInt := rfl

@[simp] theorem readOperand_immediate : readOperand s k ⟨.immediate, w⟩ = .ok w := rfl

@[simp] theorem readOperand_relative :
    readOperand s k ⟨.relative, w⟩ = memRead s (.operand k) (s.rb.toInt + w.toInt) := rfl

@[simp] theorem writeAddress_position :
    writeAddress s k ⟨.position, w⟩ = checkAddr (.operand k) w.toInt := rfl

@[simp] theorem writeAddress_immediate :
    writeAddress s k ⟨.immediate, w⟩ = .error (.illegalWriteMode k) := rfl

@[simp] theorem writeAddress_relative :
    writeAddress s k ⟨.relative, w⟩ = checkAddr (.operand k) (s.rb.toInt + w.toInt) := rfl

/-- Settles O22: position and relative operands are MemReads of the address they name, and no word is above
`ADDR_MAX`. -/
theorem sourceOperandByMode : Obligations.SourceOperandByMode := by
  refine fun s k w => ⟨fun v => ?_, fun hw => ?_, rfl, fun v => ?_, fun hr => ?_⟩
  · simp [memRead_ok_iff, toInt_le_addrMax, eq_comm (a := v)]
  · exact readOperand_position.trans (memRead_error_iff.2 ⟨by omega, rfl⟩)
  · simp [memRead_ok_iff, eq_comm (a := v)]
  · exact readOperand_relative.trans (memRead_error_iff.2 ⟨hr, rfl⟩)

/-- Settles O23: position and relative operands are range checks of the address they name, and no word is above
`ADDR_MAX`. -/
theorem destinationOperandByMode : Obligations.DestinationOperandByMode := by
  refine fun s k w => ⟨fun d => ?_, fun hw => ?_, rfl, fun d => ?_, fun hr => ?_⟩
  · simp [checkAddr_ok_iff, toInt_le_addrMax]
  · exact writeAddress_position.trans (checkAddr_error_iff.2 ⟨by omega, rfl⟩)
  · simp [checkAddr_ok_iff]
  · exact writeAddress_relative.trans (checkAddr_error_iff.2 ⟨hr, rfl⟩)

end Sys2Proof.Machine

end

/-! # Execution cycle (40_execution_cycle.md): the outcomes of a step, and the frame of each instruction -/

section

namespace Sys2Proof.Machine

variable {policy : OverflowPolicy} {p : Params} {s t : State} {i : Instr} {k d a : Nat} {o : Operand}

/-! ## What an effect leaves alone -/

/-- An effect records no fault (R79). -/
theorem Effect.fault_eq (h : Effect policy s i t) : t.fault = s.fault := by
  rcases h.status_cases with ⟨-, rfl⟩ | hsame
  · rfl
  · exact hsame.fault

/-- No instruction sets `HALT_IMPLICIT` (R17, R72). -/
theorem Effect.haltImplicit_eq (h : Effect policy s i t) : t.haltImplicit = s.haltImplicit := by
  rcases h.status_cases with ⟨-, rfl⟩ | hsame
  · rfl
  · exact hsame.haltImplicit

theorem Effect.halted_eq (h : Effect policy s i t) (hi : i ≠ .hlt) : t.halted = s.halted := by
  rcases h.status_cases with ⟨rfl, -⟩ | hsame
  · exact absurd rfl hi
  · exact hsame.halted

theorem Effect.rb_eq (h : Effect policy s i t) (hi : ∀ a, i ≠ .arb a) : t.rb = s.rb := by
  rcases h.rb_cases with hrb | ⟨a, -, rfl, -⟩
  · exact hrb
  · exact absurd rfl (hi a)

theorem Effect.inq_eq (h : Effect policy s i t) (hi : ∀ o, i ≠ .inp o) : t.inq = s.inq := by
  rcases h.inq_cases with hq | ⟨-, o, -, -, rfl, -⟩
  · exact hq
  · exact absurd rfl (hi o)

theorem Effect.outq_eq (h : Effect policy s i t) (hi : ∀ a, i ≠ .out a) : t.outq = s.outq := by
  rcases h.outq_cases with hq | ⟨-, a, -, rfl, -⟩
  · exact hq
  · exact absurd rfl (hi a)

/-- Only the cell of the resolved destination is written (R77). -/
theorem Effect.read_eq (h : Effect policy s i t) (hi : destinationOf i = some (k, o))
    (hd : writeAddress s k o = .ok d) (ha : a ≠ d) : t.mem.read a = s.mem.read a := by
  rcases h.memory_cases with ⟨hm, -⟩ | ⟨k', o', d', v, hi', hd', hm, -⟩
  · rw [hm]
  · cases hi.symm.trans hi'
    cases hd.symm.trans hd'
    rw [hm, read_write_other _ _ ha]

/-- Without a destination that resolves nothing is written. -/
theorem Effect.sameMemory (h : Effect policy s i t)
    (hn : ∀ k o d, destinationOf i = some (k, o) → writeAddress s k o ≠ .ok d) : SameMemory s t := by
  rcases h.memory_cases with ⟨hm, hh⟩ | ⟨k, o, d, -, hi, hd, -⟩
  · exact ⟨fun a => by rw [hm], hh⟩
  · exact absurd hd (hn k o d hi)

/-! ## The instructions -/

theorem raise_sameMemory (s : State) (c : FaultCause) : SameMemory s (s.raise c) := ⟨fun _ => rfl, rfl⟩

/-- An instruction whose operands resolve has its effect, at the spec's parameter value. -/
theorem effect_of_operandsResolve (hr : firstOperandFault s 1 (operandRoles i) = none)
    (h : exec i s = .next t) : Effect .wrap s i t := by
  rcases exec_next h with he | ⟨c, -, hc⟩
  · exact he
  · rw [hr] at hc; cases hc

theorem exec_total (i : Instr) (s : State) : ∃ t, exec i s = .next t := by
  rw [exec_eq_execWith]; exact execWith_total _ i s

/-- The first operand that does not resolve raises its fault (R75, phase 5). -/
theorem exec_of_firstOperandFault {c : FaultCause} (h : firstOperandFault s 1 (operandRoles i) = some c) :
    exec i s = .next (s.withFault c (some s.opcodeWord)) := by
  rw [exec_eq_execWith, execWith_of_raises (.operand h), raise_eq_withFault (faultWord_of_firstOperandFault h)]

/-! ## The step -/

/-- A step that leaves `FAULT` recorded is a fault entry (R79). -/
theorem eq_raise_of_stepWith (h : stepWith p s = .next t) (ht : t.fault ≠ none) : ∃ c, t = s.raise c := by
  obtain ⟨hl, hcases⟩ := stepWith_effects h
  have running : s.fault = none := ((live_iff s).1 hl).2
  obtain ⟨-, rfl⟩ | ⟨-, -, rfl⟩ | ⟨-, c, rfl, -⟩ | ⟨-, i, -, he⟩ := hcases
  · exact ⟨_, rfl⟩
  · exact absurd running ht
  · exact ⟨c, rfl⟩
  · exact absurd (he.fault_eq.trans running) ht

/-- Only the implicit halt sets `HALT_IMPLICIT` (R72, R79). -/
theorem eq_haltImplicitly_of_stepWith (h : stepWith p s = .next t) (ht : t.haltImplicit ≠ s.haltImplicit) :
    t = s.haltImplicitly := by
  obtain ⟨-, ⟨-, rfl⟩ | ⟨-, -, rfl⟩ | ⟨-, c, rfl, -⟩ | ⟨-, i, -, he⟩⟩ := stepWith_effects h
  · exact absurd rfl ht
  · rfl
  · exact absurd rfl ht
  · exact absurd he.haltImplicit_eq ht

theorem stepWith_negative_ip (hl : s.live = true) (hip : s.ip.toInt < 0) :
    stepWith p s = .next (s.withFault (.addressFault .fetch s.ip.toInt) none) := by
  rw [stepWith_live hl, if_pos hip]; rfl

theorem stepWith_at_hwm (hl : s.live = true) (hip : 0 ≤ s.ip.toInt) (hend : s.hwm ≤ s.ipAddr) :
    stepWith p s = .next s.haltImplicitly := by
  rw [stepWith_live hl, if_neg (not_lt.2 hip), if_pos hend]

/-! ## The outcomes -/

theorem stepOutcome_ne_noStep (hl : s.live = true) : stepOutcome p s ≠ .noStep := by
  rcases stepOutcome_cases p s with ⟨hs, -⟩ | ⟨t, -, -, houtcome⟩
  · rw [hl] at hs; cases hs
  · obtain ⟨r, -, ho⟩ | ⟨-, -, ho⟩ | ⟨-, -, -, ho⟩ | ⟨-, -, -, ho⟩ := houtcome <;> simp [ho]

/-- Suspension is being blocked, and leaves the state as it is (R76). -/
theorem stepOutcome_suspends_iff : stepOutcome p s = .suspends t ↔ t = s ∧ blocked p s = true := by
  constructor
  · exact fun h => (stepOutcome_suspends h).symm
  · rintro ⟨rfl, hb⟩
    exact stepOutcome_of_blocked hb

theorem runLoop_blocked (hb : blocked p s = true) (n : Nat) :
    runLoop p (n + 1) s = some (.awaitingInput, s) := by
  rw [runLoop, stepOutcome_of_blocked hb]

theorem stepOutcome_faults_eq {r : FaultRecord} (h : stepOutcome p s = .faults t r) :
    t = { s with fault := some r } := by
  obtain ⟨-, hs, hr⟩ := stepOutcome_faults h
  obtain ⟨c, rfl⟩ := eq_raise_of_stepWith hs (by simp [hr])
  rw [← hr]; rfl

/-! ## Statements about the execution cycle -/

/-- Settles O11: by the cases of being live, and the inversion of each outcome. -/
theorem stepIsDefinedExactlyWhereLive : Obligations.StepIsDefinedExactlyWhereLive := by
  refine fun s => ⟨fun hl => ?_, fun hh => ?_, fun hh hf => ?_, stepOutcome_ne_noStep,
    fun t => ⟨fun h => (stepOutcome_suspends h).2, fun h => ?_, fun r h => stepOutcome_faults_eq h⟩⟩
  · rw [← stepWith_params]; exact stepWith_total _ hl
  · rw [← stepWith_params]; exact stepWith_halted hh
  · rw [← stepWith_params]; exact stepWith_faulted hh hf
  · obtain ⟨-, -, -, hh⟩ := stepOutcome_halts h
    exact hh

/-- Settles O12: the two tests that come before the fetch. -/
theorem fetchTestFaultsOrHaltsImplicitly : Obligations.FetchTestFaultsOrHaltsImplicitly := by
  refine fun s hl => ⟨fun hip => ?_, fun hip hend => ?_⟩
  · rw [← stepWith_params]; exact stepWith_negative_ip hl hip
  · rw [← stepWith_params]
    exact stepWith_at_hwm hl hip (by simp only [State.ipAddr]; omega)

/-- Settles O14: an instruction enters its first operand fault, or has its effect, which records none. -/
theorem firstOperandThatFailsIsRaised : Obligations.FirstOperandThatFailsIsRaised := by
  refine fun s i => ⟨fun c => exec_of_firstOperandFault, fun hr => ?_⟩
  obtain ⟨t, ht⟩ := exec_total i s
  exact ⟨t, ht, (effect_of_operandsResolve hr ht).fault_eq⟩

/-- Settles O15: suspension is being blocked, which the run reports at once. -/
theorem suspensionIsExactlyInputOnAnEmptyQueue : Obligations.SuspensionIsExactlyInputOnAnEmptyQueue := by
  refine fun p s t => ⟨?_, fun h => ?_⟩
  · rw [stepOutcome_suspends_iff, blocked_iff]
  · have hb := (stepOutcome_suspends h).1
    exact ⟨stepWith_blocked hb, runLoop_blocked hb⟩

/-- Settles O16: each of the three is one of the cases of the step's inversion. -/
theorem faultSuspensionAndImplicitHaltArePrecise : Obligations.FaultSuspensionAndImplicitHaltArePrecise := by
  refine fun p s t h => ⟨fun ht => ?_, fun hb => ?_, fun hs ht => ?_⟩
  · obtain ⟨c, rfl⟩ := eq_raise_of_stepWith h ht
    exact ⟨rfl, fun r hr => by cases hr; rfl⟩
  · rw [stepWith_blocked hb] at h; cases h; rfl
  · exact eq_haltImplicitly_of_stepWith h (by simp [hs, ht])

/-- Settles O36: the effect of a storing instruction writes at its destination; a fault changes `FAULT` alone. -/
theorem storingInstructionsChangeOnlyTheTargetCell :
    Obligations.StoringInstructionsChangeOnlyTheTargetCell := by
  intro i k o s t hi h
  have hfault hr := (effect_of_operandsResolve hr h).fault_eq
  rcases exec_next h with he | ⟨c, rfl, -⟩
  · refine ⟨fun d hd a ha => he.read_eq hi hd ha, fun c hc => he.sameMemory ?_, he.rb_eq ?_, he.outq_eq ?_,
      he.halted_eq ?_, he.haltImplicit_eq, he.inq_eq, hfault⟩
    · intro k' o' d hi' hd
      cases hi.symm.trans hi'
      rw [hc] at hd; cases hd
    · rintro a rfl; cases hi
    · rintro a rfl; cases hi
    · rintro rfl; cases hi
  · exact ⟨fun _ _ _ _ => rfl, fun _ _ => raise_sameMemory s c, rfl, rfl, rfl, rfl, fun _ => rfl, hfault⟩

/-- Settles O37: an instruction without a destination writes no cell, and its fault changes `FAULT` alone. -/
theorem otherInstructionsLeaveMemoryAlone : Obligations.OtherInstructionsLeaveMemoryAlone := by
  intro i s t hi h
  have hfault hr := (effect_of_operandsResolve hr h).fault_eq
  rcases exec_next h with he | ⟨c, rfl, -⟩
  · refine ⟨he.sameMemory ?_, he.inq_eq ?_, he.haltImplicit_eq, he.outq_eq, he.rb_eq, he.halted_eq, hfault⟩
    · intro k o d hk
      rw [hi] at hk; cases hk
    · rintro o rfl; cases hi
  · exact ⟨raise_sameMemory s c, rfl, rfl, fun _ => rfl, fun _ => rfl, fun _ => rfl, hfault⟩

/-- Settles O10: the words at `IP` are fetched and decoded to the instruction, which the step runs. -/
theorem stepRunsTheInstructionAtIp : Obligations.StepRunsTheInstructionAtIp := by
  intro s i hs hi hw
  rw [step_fetches hs, fetchInstr_of_holds hs.2.1 hi hw]

end Sys2Proof.Machine

end

/-! # Arithmetic (41_arithmetic.md): what add and mul store, and runs under either value of `OVERFLOW` -/

section

namespace Sys2Proof.Machine

variable {policy : OverflowPolicy} {p : Params} {s t : State} {i : Instr} {r : ResumeResult}

/-! ## A stored result -/

/-- One write and the `IP` update: everything a completed instruction with a result changes (R77, R78). -/
theorem store_advance_spec (s : State) (d : Nat) (v : Word) (len : Nat) :
    StoredWord s ((s.store d v).advance len) d v ∧
      ((s.store d v).advance len).ip = wrap64 (s.ip.toInt + len) ∧
      ((s.store d v).advance len).rb = s.rb ∧
      SameQueues s ((s.store d v).advance len) ∧ SameStatus s ((s.store d v).advance len) :=
  ⟨storedWord_of_write rfl rfl, rfl, rfl, ⟨rfl, rfl⟩, ⟨rfl, rfl, rfl⟩⟩

/-! ## Without an overflow fault the two values of `OVERFLOW` agree (R87, D4) -/

/-- What has its effect under some value of `OVERFLOW` has it under `wrap`: a result that `narrow` lets
through is the wrapped one, and only add, mul and arb look at the parameter. -/
theorem execWith_wrap_of_effect (h : Effect policy s i t) : execWith .wrap i s = .next t := by
  have hexec := execWith_of_effect h
  cases h with
  | add ha hb hd hr =>
    obtain rfl := narrow_ok hr
    exact execWith_of_effect (.add ha hb hd (narrow_wrap _))
  | mul ha hb hd hr =>
    obtain rfl := narrow_ok hr
    exact execWith_of_effect (.mul ha hb hd (narrow_wrap _))
  | arb ha hr =>
    obtain rfl := narrow_ok hr
    exact execWith_of_effect (.arb ha (narrow_wrap _))
  | _ => exact hexec

/-- An instruction does what it does under `wrap`, or enters the overflow fault. -/
theorem execWith_wrap_or_overflow (policy : OverflowPolicy) (i : Instr) (s : State) :
    execWith .wrap i s = execWith policy i s ∨
      ∃ x, execWith policy i s = .next (s.raise (.arithOverflow x)) := by
  rcases execWith_cases policy i s with ⟨t, ht, he⟩ | ⟨c, hc, hraises⟩
  · exact .inl ((execWith_wrap_of_effect he).trans ht.symm)
  · cases hraises with
    | operand h => exact .inl ((execWith_of_raises (.operand h)).trans hc.symm)
    | addOverflow | mulOverflow | arbOverflow => exact .inr ⟨_, hc⟩

/-- Where nothing is fetched, no parameter is read (R70, R72). -/
theorem stepWith_eq_of_not_fetches (h : ¬ s.fetches) (p q : Params) : stepWith p s = stepWith q s := by
  by_cases hl : s.live = true
  · rcases lt_or_ge s.ip.toInt 0 with hip | hip
    · rw [stepWith_negative_ip hl hip, stepWith_negative_ip hl hip]
    · have hend : s.hwm ≤ s.ipAddr := not_lt.1 fun hlt => h ⟨hl, hip, hlt⟩
      rw [stepWith_at_hwm hl hip hend, stepWith_at_hwm hl hip hend]
  · by_cases hh : s.halted = true
    · rw [stepWith_halted hh, stepWith_halted hh]
    · have hrunning : s.halted = false := by simpa using hh
      have hf : s.fault ≠ none := fun hf => hl ((live_iff s).2 ⟨hrunning, hf⟩)
      rw [stepWith_faulted hrunning hf, stepWith_faulted hrunning hf]

/-- `execWith_wrap_or_overflow` for a whole step. -/
theorem stepWith_wrap_or_overflow (p : Params) (s : State) :
    stepWith { p with overflow := .wrap } s = stepWith p s ∨
      ∃ x, stepWith p s = .next (s.raise (.arithOverflow x)) := by
  by_cases hf : s.fetches
  · rw [stepWith_fetches hf, stepWith_fetches hf]
    dsimp only
    rcases fetchInstr p.strayDigits s with c | i
    · exact .inl rfl
    · exact execWith_wrap_or_overflow p.overflow i s
  · exact .inl (stepWith_eq_of_not_fetches hf _ _)

/-- `OVERFLOW` plays no part in being blocked, so the outcomes agree where the steps do. -/
theorem stepOutcome_wrap_or_overflow (p : Params) (s : State) :
    stepOutcome { p with overflow := .wrap } s = stepOutcome p s ∨
      ∃ t rec, stepOutcome p s = .faults t rec ∧ rec.cause.code = 6 := by
  rcases stepWith_wrap_or_overflow p s with h | ⟨x, h⟩
  · left
    rw [stepOutcome, h]
    rfl
  · right
    exact ⟨_, _, by rw [stepOutcome, h]; rfl, rfl⟩

/-- The simulation along a run: step by step the same outcome, as long as none is an overflow fault. -/
theorem runLoop_wrap {fuel : Nat} (h : runLoop p fuel s = some (r, t))
    (hr : ∀ rec, r = .fatal rec → rec.cause.code ≠ 6) :
    runLoop { p with overflow := .wrap } fuel s = some (r, t) := by
  induction fuel generalizing s with
  | zero => cases h
  | succ n ih =>
    rw [runLoop] at h
    rcases stepOutcome_wrap_or_overflow p s with hsame | ⟨u, rec, hfault, hcode⟩
    · rw [runLoop, hsame]
      cases hu : stepOutcome p s with
      | continues u => rw [hu] at h; exact ih h
      | _ => rw [hu] at h; exact h
    · rw [hfault] at h
      cases h
      exact absurd hcode (hr rec rfl)

/-! ## Statements about add, mul and the overflow parameter -/

/-- Settles O25: the effect of add under `wrap` is one store and the `IP` update. -/
theorem addStoresTheWrappedSum : Obligations.AddStoresTheWrappedSum :=
  fun s _ _ _ x y d ha hb hd =>
    ⟨_, exec_of_effect (.add ha hb hd (narrow_wrap _)), store_advance_spec s d (wrap64 (x.toInt + y.toInt)) 4⟩

/-- Settles O26: the effect of mul under `wrap` is one store and the `IP` update. -/
theorem mulStoresTheWrappedProduct : Obligations.MulStoresTheWrappedProduct :=
  fun s _ _ _ x y d ha hb hd =>
    ⟨_, exec_of_effect (.mul ha hb hd (narrow_wrap _)), store_advance_spec s d (wrap64 (x.toInt * y.toInt)) 4⟩

/-- Settles O60: a stopped machine answers without a step, and a live one runs the same steps. -/
theorem overflowFaultModelRefinesWrap : Obligations.OverflowFaultModelRefinesWrap := by
  intro p fuel values s t r h hr
  rcases resume_cases h with ⟨rec, hf, rfl, rfl⟩ | ⟨hf, hh, rfl, rfl⟩ | ⟨hl, hrun⟩
  · exact resume_faulted hf
  · exact resume_halted hh hf
  · rw [resume_live hl]
    exact runLoop_wrap (p := { p with overflow := .fault }) hrun hr

end Sys2Proof.Machine

end

/-! # Input and output (42_io.md): what in and out do, and what a run and a session do to the two queues -/

section

namespace Sys2Proof.Machine

variable {p : Params} {s t u : State} {fuel : Nat} {r : ResumeResult}

/-! ## The instructions -/

/-- Settles O29: the effect of a popping `in` is one store and the `IP` update, on the shortened queue. -/
theorem inStoresTheFrontOfTheQueue : Obligations.InStoresTheFrontOfTheQueue :=
  fun _ _ _ _ _ hd hq =>
    ⟨_, exec_of_effect (.inpPop hd hq), storedWord_of_write rfl rfl, rfl, rfl, rfl, rfl, ⟨rfl, rfl, rfl⟩⟩

/-- Settles O31: the effect of `out` is the appended value and the `IP` update. -/
theorem outAppendsItsValue : Obligations.OutAppendsItsValue :=
  fun _ _ _ ha => ⟨_, exec_of_effect (.out ha), rfl, rfl, ⟨fun _ => rfl, rfl⟩, rfl, rfl, ⟨rfl, rfl, rfl⟩⟩

/-- Settles O30: suspension is the effect of an `in` whose target resolves; any other target is the first
operand fault. -/
theorem inOnAnEmptyQueueChangesNothing : Obligations.InOnAnEmptyQueueChangesNothing := by
  refine fun s o hq => ⟨fun d hd => exec_of_effect (.inpSuspend hd hq), fun c hc => ?_⟩
  have hfault : firstOperandFault s 1 (operandRoles (.inp o)) = some c := by
    simp [operandRoles, firstOperandFault, operandFault_destination_some.2 hc]
  exact exec_of_firstOperandFault hfault

/-! ## The balance of the two queues (R92) -/

/-- Between `s` and `t` the words `stored` left `INQ` and the words `pushed` joined it, the words `sent` joined
`OUTQ` and the words `cleared` left it; nothing else was lost, doubled or moved. -/
structure QueuesBalance (s t : State) (pushed stored sent cleared : List Word) : Prop where
  input : s.inq ++ pushed = stored ++ t.inq
  output : s.outq ++ sent = cleared ++ t.outq

theorem QueuesBalance.refl (s : State) : QueuesBalance s s [] [] [] [] := ⟨by simp, by simp⟩

/-- Balances of consecutive stretches join, each list in order. -/
theorem QueuesBalance.trans {pushed₁ stored₁ sent₁ cleared₁ pushed₂ stored₂ sent₂ cleared₂ : List Word}
    (h₁ : QueuesBalance s t pushed₁ stored₁ sent₁ cleared₁)
    (h₂ : QueuesBalance t u pushed₂ stored₂ sent₂ cleared₂) :
    QueuesBalance s u (pushed₁ ++ pushed₂) (stored₁ ++ stored₂) (sent₁ ++ sent₂) (cleared₁ ++ cleared₂) where
  input := by
    rw [← List.append_assoc, h₁.input, List.append_assoc, h₂.input, List.append_assoc]
  output := by
    rw [← List.append_assoc, h₁.output, List.append_assoc, h₂.output, List.append_assoc]

theorem appendInput_balance (s : State) (values : List Word) :
    QueuesBalance s (s.appendInput values) values [] [] [] := ⟨rfl, by simp⟩

theorem clearOutput_balance (s : State) : QueuesBalance s (clearOutput s) [] [] [] s.outq := ⟨by simp, by simp⟩

/-- Every step, whatever its outcome, takes from `INQ` what its `in` stores and adds to `OUTQ` what its `out`
reads. -/
theorem stepWith_balance (hs : stepWith p s = .next t) :
    QueuesBalance s t [] (storedByIn p s) (sentByOut p s) [] := by
  by_cases h : ∃ u, stepOutcome p s = .continues u
  · obtain ⟨u, hu⟩ := h
    obtain ⟨-, hsu, -, -⟩ := stepOutcome_continues hu
    cases hs.symm.trans hsu
    obtain ⟨hin, hout⟩ := stepOutcome_continues_queues hu
    exact ⟨by simpa using hin, hout.symm⟩
  · have hstop : ∀ u, stepOutcome p s ≠ .continues u := fun u hu => h ⟨u, hu⟩
    obtain ⟨hin, hout⟩ := stepOutcome_stops_queues hstop hs
    exact ⟨by simp [storedByIn_eq_nil hstop, hin], by simp [sentByOut_eq_nil hstop, hout]⟩

/-! ## Runs -/

theorem runStates_continues (h : stepOutcome p s = .continues t) :
    runStates p (fuel + 1) s = s :: runStates p fuel t := by
  simp [runStates, h]

theorem runStates_stops (h : ∀ t, stepOutcome p s ≠ .continues t) : runStates p (fuel + 1) s = [s] := by
  unfold runStates
  split
  · next t ht => exact absurd ht (h t)
  · rfl

/-- A run that returns goes on from its first step, or ends with it. -/
theorem runLoop_succ_cases (h : runLoop p (fuel + 1) s = some (r, t)) :
    (∃ u, stepOutcome p s = .continues u ∧ runLoop p fuel u = some (r, t)) ∨
      (∀ u, stepOutcome p s ≠ .continues u) ∧ stepWith p s = .next t := by
  rw [runLoop] at h
  cases ho : stepOutcome p s with
  | continues u => rw [ho] at h; exact .inl ⟨u, rfl, h⟩
  | suspends u =>
    rw [ho] at h; cases h
    obtain ⟨hb, rfl⟩ := stepOutcome_suspends ho
    exact .inr ⟨nofun, stepWith_blocked hb⟩
  | halts u => rw [ho] at h; cases h; exact .inr ⟨nofun, (stepOutcome_halts ho).2.1⟩
  | faults u rec => rw [ho] at h; cases h; exact .inr ⟨nofun, (stepOutcome_faults ho).2.1⟩
  | noStep => rw [ho] at h; cases h

/-- A run balances the queues, because each of its steps does. -/
theorem runLoop_balance (h : runLoop p fuel s = some (r, t)) :
    QueuesBalance s t [] ((runStates p fuel s).flatMap (storedByIn p))
      ((runStates p fuel s).flatMap (sentByOut p)) [] := by
  induction fuel generalizing s with
  | zero => cases h
  | succ n ih =>
    rcases runLoop_succ_cases h with ⟨u, hu, hrun⟩ | ⟨hstop, hs⟩
    · obtain ⟨-, hs, -, -⟩ := stepOutcome_continues hu
      rw [runStates_continues hu, List.flatMap_cons, List.flatMap_cons]
      exact (stepWith_balance hs).trans (ih hrun)
    · rw [runStates_stops hstop, List.flatMap_singleton, List.flatMap_singleton]
      exact stepWith_balance hs

/-! ## Host operations and sessions -/

/-- Every host operation balances the queues: it appends, runs, clears, or does nothing to them. -/
theorem hostCall_balance {call : HostCall} {reply : HostReply} (h : hostCall p fuel call s = some (reply, t)) :
    QueuesBalance s t (callInput call s) ((callStates p fuel call s).flatMap (storedByIn p))
      ((callStates p fuel call s).flatMap (sentByOut p)) (callCleared call s) := by
  cases call with
  | enqueue values =>
    cases h
    cases hl : s.live with
    | true =>
      simpa [callInput, callStates, callCleared, hl, enqueue_live hl] using appendInput_balance s values
    | false =>
      simpa [callInput, callStates, callCleared, hl, enqueue_stopped hl] using QueuesBalance.refl s
  | resume values =>
    obtain ⟨r, -, hr⟩ := hostCall_resume h
    cases hl : s.live with
    | true =>
      rw [resume_live hl] at hr
      simpa [callInput, callStates, callCleared, hl] using (appendInput_balance s values).trans (runLoop_balance hr)
    | false =>
      have hsame : t = s := (hostCall_stopped hl h).resolve_right (fun hclear => nomatch hclear.1)
      simpa [callInput, callStates, callCleared, hl, hsame] using QueuesBalance.refl s
  | readOutput => cases h; exact .refl s
  | clearOutput => cases h; exact clearOutput_balance s
  | isHalted => cases h; exact .refl s

theorem overSession_cons {α : Type} {call : HostCall} {reply : HostReply}
    (h : hostCall p fuel call s = some (reply, u)) (f : HostCall → State → List α) (later : List HostCall) :
    overSession p fuel f (call :: later) s = f call s ++ overSession p fuel f later u := by
  simp [overSession, h]

/-- A session balances the queues, because each of its operations does. -/
theorem hostSession_balance {calls : List HostCall} {replies : List HostReply}
    (h : hostSession p fuel calls s = some (replies, t)) :
    QueuesBalance s t (overSession p fuel callInput calls s)
      ((overSession p fuel (callStates p fuel) calls s).flatMap (storedByIn p))
      ((overSession p fuel (callStates p fuel) calls s).flatMap (sentByOut p))
      (overSession p fuel callCleared calls s) := by
  induction calls generalizing s replies with
  | nil => cases h; exact .refl _
  | cons call later ih =>
    obtain ⟨reply, u, replies', hu, hlater, -⟩ := hostSession_cons h
    simp only [overSession_cons hu, List.flatMap_append]
    exact (hostCall_balance hu).trans (ih hlater)

/-- Settles O56: every step balances the queues, so a run does, and so does a session of host operations. -/
theorem runsLoseAndReorderNoInputAndNoOutput : Obligations.RunsLoseAndReorderNoInputAndNoOutput := by
  refine ⟨fun p fuel values s t r hl h => ?_, fun p fuel calls s t replies h => ?_⟩
  · rw [resume_live hl] at h
    obtain ⟨hin, hout⟩ := runLoop_balance h
    exact ⟨by simpa using hin, hout.symm⟩
  · obtain ⟨hin, hout⟩ := hostSession_balance h
    exact ⟨hin, hout⟩

end Sys2Proof.Machine

end

/-! # Jumps (43_jumps.md): where jt and jf continue, and that they change `IP` alone -/

section

namespace Sys2Proof.Machine

/-- The frame of a jump, taken or not: where only `IP` changes, all else is kept. -/
theorem setIp_frame (s : State) (target : Word) :
    SameMemory s { s with ip := target } ∧ { s with ip := target }.rb = s.rb ∧
      SameQueues s { s with ip := target } ∧ SameStatus s { s with ip := target } :=
  ⟨⟨fun _ => rfl, rfl⟩, rfl, ⟨rfl, rfl⟩, ⟨rfl, rfl, rfl⟩⟩

/-- Settles O32: by whether operand 1 is 0, the effect of jt is the `IP` update or the target loaded into `IP`. -/
theorem jtJumpsExactlyOnNonzero : Obligations.JtJumpsExactlyOnNonzero := by
  intro s c d x y hc hd
  by_cases hx : x.toInt = 0
  · exact ⟨_, exec_of_effect (.jtNot hc hd hx), (if_neg (not_not.2 hx)).symm, setIp_frame s _⟩
  · exact ⟨_, exec_of_effect (.jtTaken hc hd hx), (if_pos hx).symm, setIp_frame s y⟩

/-- Settles O33: by whether operand 1 is 0, the effect of jf is the target loaded into `IP` or the `IP` update. -/
theorem jfJumpsExactlyOnZero : Obligations.JfJumpsExactlyOnZero := by
  intro s c d x y hc hd
  by_cases hx : x.toInt = 0
  · exact ⟨_, exec_of_effect (.jfTaken hc hd hx), (if_pos hx).symm, setIp_frame s y⟩
  · exact ⟨_, exec_of_effect (.jfNot hc hd hx), (if_neg hx).symm, setIp_frame s _⟩

end Sys2Proof.Machine

end

/-! # Comparison (44_compare.md): what lt and eq store -/

section

namespace Sys2Proof.Machine

/-- The stored results are the words 1 and 0 and nothing else (R102). -/
theorem truthWord_decide (P : Prop) [Decidable P] : truthWord (decide P) = if P then 1 else 0 := by
  by_cases h : P
  · rw [decide_eq_true h, if_pos h]; rfl
  · rw [decide_eq_false h, if_neg h]; rfl

/-- `lt` stores the strict order of the two signed values (R100, R102). -/
theorem truthWord_lessThan (x y : Word) : truthWord (lessThan x y) = if x.toInt < y.toInt then 1 else 0 :=
  truthWord_decide _

/-- `eq` stores the identity of the two signed values (R101, R102). -/
theorem truthWord_equalTo (x y : Word) : truthWord (equalTo x y) = if x.toInt = y.toInt then 1 else 0 :=
  truthWord_decide _

/-- Settles O27: the effect of lt is one store, of the signed comparison's word, and the `IP` update. -/
theorem ltStoresTheSignedComparison : Obligations.LtStoresTheSignedComparison := by
  intro s a b o x y d ha hb hd
  rw [← truthWord_lessThan]
  exact ⟨_, exec_of_effect (.lt ha hb hd), store_advance_spec s d _ 4⟩

/-- Settles O28: the effect of eq is one store, of the equality test's word, and the `IP` update. -/
theorem eqStoresTheEqualityTest : Obligations.EqStoresTheEqualityTest := by
  intro s a b o x y d ha hb hd
  rw [← truthWord_equalTo]
  exact ⟨_, exec_of_effect (.eq ha hb hd), store_advance_spec s d _ 4⟩

end Sys2Proof.Machine

end

/-! # Relative base (45_relative_base.md): relative operands against position operands, and what arb does -/

section

namespace Sys2Proof.Machine

variable {s : State} {k : Nat} {w : Word}

/-! ## The equivalent position operand (R106) -/

/-- An address of the address space is a word, so that a position operand can name it. -/
theorem toInt_wrap64_address {x : Int} (h0 : 0 ≤ x) (hmax : x ≤ Config.addrMax) : (wrap64 x).toInt = x :=
  toInt_wrap64 (by simp only [wordMin]; omega) hmax

theorem readOperand_relative_eq_position (h0 : 0 ≤ s.rb.toInt + w.toInt)
    (hmax : s.rb.toInt + w.toInt ≤ Config.addrMax) :
    readOperand s k ⟨.relative, w⟩ = readOperand s k ⟨.position, wrap64 (s.rb.toInt + w.toInt)⟩ := by
  rw [readOperand_relative, readOperand_position, toInt_wrap64_address h0 hmax]

theorem writeAddress_relative_eq_position (h0 : 0 ≤ s.rb.toInt + w.toInt)
    (hmax : s.rb.toInt + w.toInt ≤ Config.addrMax) :
    writeAddress s k ⟨.relative, w⟩ = writeAddress s k ⟨.position, wrap64 (s.rb.toInt + w.toInt)⟩ := by
  rw [writeAddress_relative, writeAddress_position, toInt_wrap64_address h0 hmax]

/-- A position operand that names the stored cell reads the stored value. -/
theorem readOperand_position_store {d : Nat} (hw : w.toInt = d) (hd : d ≤ Config.addrMax) (v : Word) :
    readOperand (s.store d v) k ⟨.position, w⟩ = .ok v := by
  rw [readOperand_position, hw]
  exact memRead_ok_iff.2 ⟨by omega, by omega, by simp⟩

/-- Settles O24: both operands name the address `RB + d`, and the value read back is the one stored there. -/
theorem relativeOperandNamesThePositionCell : Obligations.RelativeOperandNamesThePositionCell := by
  intro s j k w h0 hmax
  refine ⟨readOperand_relative_eq_position h0 hmax, writeAddress_relative_eq_position h0 hmax, fun v => ?_⟩
  obtain ⟨d, hd⟩ := Int.eq_ofNat_of_zero_le h0
  have hle : d ≤ Config.addrMax := by omega
  refine ⟨d, s.store d v, ?_, memWrite_of_le hle, ?_⟩
  · rw [writeAddress_relative, hd, checkAddr_natCast hle]
  · exact readOperand_position_store ((toInt_wrap64_address h0 hmax).trans hd) hle v

/-! ## The instruction -/

/-- Settles O34: the effect of arb under `wrap` is the new `RB` and the `IP` update. -/
theorem arbAddsToTheRelativeBase : Obligations.ArbAddsToTheRelativeBase :=
  fun _ _ _ ha =>
    ⟨_, exec_of_effect (.arb ha (narrow_wrap _)), rfl, rfl, ⟨fun _ => rfl, rfl⟩, ⟨rfl, rfl⟩, ⟨rfl, rfl, rfl⟩⟩

end Sys2Proof.Machine

end

/-! # Halt (46_halt.md): hlt sets `HALTED` and changes nothing else -/

section

namespace Sys2Proof.Machine

/-- Settles O35: the effect of hlt is one update of the `HALTED` field, so every other element is kept. -/
theorem hltSetsHaltedAlone : Obligations.HltSetsHaltedAlone :=
  fun _ => ⟨_, exec_of_effect .hlt, rfl, rfl, rfl, rfl, rfl, ⟨fun _ => rfl, rfl⟩, ⟨rfl, rfl⟩⟩

end Sys2Proof.Machine

end

/-! # Host operations (47_host_operations.md): enqueue, resume and its results, and the output access -/

section

namespace Sys2Proof.Machine

variable {p : Params} {s t : State} {fuel : Nat} {o : Operand} {d : Nat} {v : Word} {rest values : List Word}

/-! ## A stopped machine -/

theorem live_eq_false_iff : s.live = false ↔ s.halted = true ∨ s.fault ≠ none := by
  simp [← Bool.not_eq_true, live_iff, imp_iff_not_or]

/-- The words handed to a stopped machine are not looked at (R130, R131). -/
theorem resume_stopped (hl : s.live = false) (values values' : List Word) :
    resume p fuel values s = resume p fuel values' s := by
  rcases hf : s.fault with _ | r
  · have hh : s.halted = true := (live_eq_false_iff.1 hl).resolve_right (not_not.2 hf)
    rw [resume_halted hh hf, resume_halted hh hf]
  · rw [resume_faulted hf, resume_faulted hf]

theorem resume_eq_resume_enqueue : resume p fuel values s = resume p fuel [] (enqueue values s) := by
  cases hl : s.live with
  | true =>
    rw [enqueue_live hl, resume_live hl, resume_live (by simpa using hl), appendInput_nil]
  | false =>
    rw [enqueue_stopped hl]
    exact resume_stopped hl values []

/-- The invariant keeps the two ways to stop apart (R23). -/
theorem State.Inv.halted_eq_false (h : s.Inv) (hf : s.fault ≠ none) : s.halted = false :=
  Bool.eq_false_iff.2 fun hh => hf (h.notHaltedAndFaulted hh)

/-! ## The loop of `resume` -/

theorem runLoop_continues (h : stepOutcome p s = .continues t) : runLoop p (fuel + 1) s = runLoop p fuel t := by
  rw [runLoop, h]

/-- A loop whose step leads back to the same state uses up any fuel. -/
theorem runLoop_eq_none_of_self_continues (h : stepOutcome p s = .continues s) : runLoop p fuel s = none := by
  induction fuel with
  | zero => rfl
  | succ n ih => rw [runLoop_continues h, ih]

theorem resume_nil_blocked (hb : blocked p s = true) : resume p (fuel + 1) [] s = some (.awaitingInput, s) := by
  rw [resume_live (blocked_iff.1 hb).1.1, appendInput_nil, runLoop_blocked hb]

/-! ## The `in` that a suspended machine stands at -/

theorem blocked_eq_false_of_inq_cons (hq : s.inq = v :: rest) : blocked p s = false := by
  refine Bool.eq_false_iff.2 fun hb => ?_
  obtain ⟨-, hempty, -⟩ := blocked_iff.1 hb
  rw [hq] at hempty; cases hempty

/-- An `in` with a legal target and a word to read is completed: the front word is stored and `IP` moves on
(R90). -/
theorem stepOutcome_inp_cons (hf : s.fetches) (hi : fetchInstr p.strayDigits s = .ok (.inp o))
    (hd : writeAddress s 1 o = .ok d) (hq : s.inq = v :: rest) :
    stepOutcome p s = .continues (({ s with inq := rest }.store d v).advance 2) := by
  have hstep : stepWith p s = .next (({ s with inq := rest }.store d v).advance 2) := by
    rw [stepWith_fetches hf, hi]
    exact execWith_of_effect (.inpPop hd hq)
  exact stepOutcome_of_live hstep hf.1 (blocked_eq_false_of_inq_cons hq)

/-- A blocked machine that is given words stores the first of them in its `in` and goes on (R126). -/
theorem resume_cons_blocked (hb : blocked p s = true) (hi : fetchInstr p.strayDigits s = .ok (.inp o))
    (hd : writeAddress s 1 o = .ok d) :
    resume p (fuel + 1) (v :: rest) s = runLoop p fuel (({ s with inq := rest }.store d v).advance 2) := by
  obtain ⟨hf, hq, -⟩ := blocked_iff.1 hb
  rw [resume_live hf.1]
  exact runLoop_continues (stepOutcome_inp_cons (s := s.appendInput (v :: rest)) hf hi hd (by simp [hq]))

/-! ## Statements about the host operations -/

/-- Settles O49: by the two cases of being live, in each of which `enqueue` and `resume` have one answer. -/
theorem resumeIsEnqueueThenResume : Obligations.ResumeIsEnqueueThenResume :=
  fun _ _ _ _ => ⟨enqueue_live, enqueue_stopped, resume_eq_resume_enqueue⟩

/-- Settles O51: a stopped machine answers at once, and a run ends in the outcome of its last step. -/
theorem resumeResultsMeanWhatTheySay : Obligations.ResumeResultsMeanWhatTheySay := by
  intro p fuel values s t r h
  rcases resume_cases h with ⟨rec, hf, rfl, rfl⟩ | ⟨-, hh, rfl, rfl⟩ | ⟨-, hrun⟩
  · exact hf
  · cases hp : p.strictResume with
    | noop => exact hh
    | error => exact ⟨rfl, hh, rfl⟩
  · rcases runLoop_result hrun with ⟨rfl, hh, -⟩ | ⟨rfl, hb⟩ | ⟨rec, rfl, hf⟩
    · exact hh
    · obtain ⟨⟨hl, -, -⟩, hq, htarget⟩ := blocked_iff.1 hb
      obtain ⟨hh, hf⟩ := (live_iff t).1 hl
      exact ⟨hh, hf, hq, htarget⟩
    · exact hf

/-- Settles O52: with no word the `in` suspends again, with one word it is completed. -/
theorem suspensionIsResumableAndIdempotent : Obligations.SuspensionIsResumableAndIdempotent := by
  refine fun p s hb => ⟨fun _ => resume_nil_blocked hb, fun v => ?_⟩
  obtain ⟨-, -, o, d, hi, hd⟩ := blocked_iff.1 hb
  exact ⟨o, d, ({ s with inq := [] }.store d v).advance 2, hi, hd, storedWord_of_write rfl rfl, rfl, rfl,
    fun _ => resume_cons_blocked hb hi hd⟩

/-- Settles O53: on a stopped machine `resume` reports what stopped it, and `enqueue` drops its words. -/
theorem resumeOfAStoppedMachineChangesNothing : Obligations.ResumeOfAStoppedMachineChangesNothing := by
  refine fun p fuel values s => ⟨fun hh hf => ⟨?_, ?_⟩, fun r hr => ⟨resume_faulted hr, ?_⟩⟩
  · rw [resume_halted hh hf]
    cases p.strictResume <;> rfl
  · exact enqueue_stopped (live_eq_false_iff.2 (.inl hh))
  · exact enqueue_stopped (live_eq_false_iff.2 (.inr (by simp [hr])))

/-- Settles O55: the step continues into the state it began in, so the loop comes back to it for every fuel. -/
theorem aStepThatChangesNothingNeverReturns : Obligations.AStepThatChangesNothingNeverReturns := by
  intro p s hb hs fuel
  have hl : s.live = true := live_of_stepWith hs
  rw [resume_live hl, appendInput_nil]
  exact runLoop_eq_none_of_self_continues (stepOutcome_of_live hs hl hb)

/-- Settles O50: each operation answers one element of the state, and the invariant excludes a halted machine
with a fault. -/
theorem outputAccessAndHaltedQuery : Obligations.OutputAccessAndHaltedQuery := by
  refine fun p fuel s => ⟨rfl, rfl, rfl, fun h hf => ?_⟩
  rw [← h.halted_eq_false hf]
  rfl

end Sys2Proof.Machine

end

/-! # Exceptions (60_exceptions.md): which cause a step raises and what it records, overflow, and input pushed
during a run -/

section

namespace Sys2Proof

open Sys2Proof.Machine

variable {s : State} {op : Opcode} {h : OpcodeWord} {n k : Nat}

/-! ## What the decoder rejects, by cause -/

theorem opcodeOf_eq_none (hn : n ∉ [1, 2, 3, 4, 5, 6, 7, 8, 9, 99]) : opcodeOf n = none := by
  refine Option.eq_none_iff_forall_not_mem.2 fun op ho => hn ?_
  rw [opcodeOf_eq_some ho]
  cases op <;> decide

/-- The first mode digit above 2 stops the mode checks (R144). -/
theorem decodeModes_of_bad (h1 : 1 ≤ k) (hk : k ≤ op.operands) (hbad : 2 < modeDigit k n)
    (hlt : ∀ j, 1 ≤ j → j < k → modeDigit j n ≤ 2) :
    decodeModes op n = .error (.badModeDigit k (modeDigit k n)) := by
  have legal : ∀ j, 1 ≤ j → j < k → ∃ m, decodeMode op.operands n j = .ok m := fun j hj hjk =>
    (decodeMode_of_le (by omega) (hlt j hj hjk)).imp fun _ hm => hm.1
  have := operands_le op
  obtain rfl | rfl | rfl : k = 1 ∨ k = 2 ∨ k = 3 := by omega
  · rw [decodeModes, decodeMode_bad hk hbad]; rfl
  · obtain ⟨m1, hm1⟩ := legal 1 le_rfl (by omega)
    rw [decodeModes, hm1, decodeMode_bad hk hbad]; rfl
  · obtain ⟨m1, hm1⟩ := legal 1 le_rfl (by omega)
    obtain ⟨m2, hm2⟩ := legal 2 (by omega) (by omega)
    rw [decodeModes, hm1, hm2, decodeMode_bad hk hbad]; rfl

/-- The modes that the checks accept are those the digits name (R52). -/
theorem modeDigit_of_decodeModes (hd : decodeModes op n = .ok h) (h1 : 1 ≤ k) (hk : k ≤ op.operands) :
    modeDigit k n = (h.mode k).digit := by
  obtain ⟨-, hm1, hm2, hm3, -⟩ := decodeModes_ok hd
  have := operands_le op
  obtain rfl | rfl | rfl : k = 1 ∨ k = 2 ∨ k = 3 := by omega
  · exact (decodeMode_ok hm1).1 hk
  · exact (decodeMode_ok hm2).1 hk
  · exact (decodeMode_ok hm3).1 hk

theorem destination_bounds (hd : op.destination = some k) : 1 ≤ k ∧ k ≤ op.operands := by
  cases op <;> cases hd <;> decide

/-- Among legal mode digits the one thing left to reject is an immediate destination (R143). -/
theorem decodeModes_of_immediate_destination (hle : ∀ j, 1 ≤ j → j ≤ op.operands → modeDigit j n ≤ 2)
    (hdest : op.destination = some k) (hk : modeDigit k n = 1) :
    decodeModes op n = .error (.illegalWriteMode k) := by
  rcases hd : decodeModes op n with c | h
  · rcases decodeModes_error hd with ⟨j, h1, hj, hbad, -⟩ | ⟨j, hj, -, rfl⟩
    · have := hle j h1 hj; omega
    · cases hdest.symm.trans hj; rfl
  · obtain ⟨-, -, -, -, hlegal⟩ := decodeModes_ok hd
    obtain ⟨h1, hN⟩ := destination_bounds hdest
    have hdigit := modeDigit_of_decodeModes hd h1 hN
    have hmode := hlegal k hdest
    rw [hk] at hdigit
    cases hm : h.mode k <;> rw [hm] at hdigit hmode <;> contradiction

/-- Settles O7: a number of no list names no opcode. -/
theorem unknownOpcodeFaults : Obligations.UnknownOpcodeFaults :=
  fun _ hs hw hn => step_decodeWord_error hs (decodeWord_unknown .fault hw (opcodeOf_eq_none hn))

/-- Settles O8: past the opcode and the stray digits the mode checks answer, lowest operand first. -/
theorem lowestBadModeDigitFaults : Obligations.LowestBadModeDigitFaults :=
  fun _ _ _ hs hw hop hstray h1 hk hbad hlt =>
    step_decodeWord_error hs
      ((decodeWord_modes hw hop fun _ => hstray).trans (decodeModes_of_bad h1 hk hbad hlt))

/-- Settles O9: with legal digits the mode checks reject an immediate destination alone. -/
theorem immediateDestinationFaults : Obligations.ImmediateDestinationFaults :=
  fun _ _ _ hs hw hop hstray hle hdest hd =>
    step_decodeWord_error hs
      ((decodeWord_modes hw hop fun _ => hstray).trans (decodeModes_of_immediate_destination hle hdest hd))

end Sys2Proof

namespace Sys2Proof.Machine

variable {policy : OverflowPolicy} {p : Params} {s t : State} {i : Instr} {c : FaultCause} {r : FaultRecord}

/-! ## Why a step faults, said once -/

/-- The causes a step can raise, by the phase that raises them (R150). -/
inductive StepRaises (p : Params) (s : State) : FaultCause → Prop where
  | fetch (hip : s.ip.toInt < 0) : StepRaises p s (.addressFault .fetch s.ip.toInt)
  | decode {c : FaultCause} (hip : 0 ≤ s.ip.toInt) (h : decodeWord p.strayDigits s.opcodeWord = .error c) :
      StepRaises p s c
  | operandFetch {k : Nat} (hip : 0 ≤ s.ip.toInt) (h1 : 1 ≤ k) (h3 : k ≤ 3)
      (habove : Config.addrMax < s.ip.toInt + k) :
      StepRaises p s (.addressFault .operandFetch (s.ip.toInt + k))
  | instr {i : Instr} {c : FaultCause} (hip : 0 ≤ s.ip.toInt) (hi : fetchInstr p.strayDigits s = .ok i)
      (h : Raises p.overflow s i c) : StepRaises p s c

/-- What stops phases 2 to 4: the decoder, or an operand word above `ADDR_MAX`. -/
theorem stepRaises_of_fetchInstr (hip : 0 ≤ s.ip.toInt) (h : fetchInstr p.strayDigits s = .error c) :
    StepRaises p s c := by
  rw [fetchInstr_eq hip] at h
  rcases hd : decodeWord p.strayDigits s.opcodeWord with e | hdr <;> rw [hd] at h
  · cases h
    exact .decode hip hd
  · obtain ⟨k, h1, hk, hw, -⟩ := fetchOperands_error h
    obtain ⟨-, hrange, rfl⟩ := operandWord_error hw
    exact .operandFetch hip h1 (hk.trans (operands_le _)) (by omega)

/-- A step that leaves `FAULT` recorded has entered one of these causes. -/
theorem stepWith_raises (h : stepWith p s = .next t) (hr : t.fault = some r) :
    ∃ c, StepRaises p s c ∧ r = ⟨c, s.ip, faultWord s c⟩ := by
  obtain ⟨hl, hcases⟩ := stepWith_cases h
  have running : s.fault = none := ((live_iff s).1 hl).2
  have recorded : ∀ {c}, t = s.raise c → r = ⟨c, s.ip, faultWord s c⟩ := by
    rintro c rfl; cases hr; rfl
  obtain ⟨hip, ht⟩ | ⟨-, -, rfl⟩ | ⟨hf, ⟨c, hc, ht⟩ | ⟨i, hi, hx⟩⟩ := hcases
  · exact ⟨_, .fetch hip, recorded ht⟩
  · cases running.symm.trans hr
  · exact ⟨c, stepRaises_of_fetchInstr hf.2.1 hc, recorded ht⟩
  · rcases execWith_next hx with he | ⟨c, ht, hraises⟩
    · cases (he.fault_eq.trans running).symm.trans hr
    · exact ⟨c, .instr hf.2.1 hi hraises, recorded ht⟩

/-- `FAULT.word` is `none` for the fetch fault of a negative `IP` alone (R148). -/
theorem StepRaises.faultWord_eq (h : StepRaises p s c) :
    faultWord s c = if s.ip.toInt < 0 then none else some s.opcodeWord := by
  cases h with
  | fetch hip => rw [if_pos hip]; rfl
  | decode hip hd =>
    have hfetch : fetchInstr p.strayDigits s = .error c := by rw [fetchInstr_eq hip, hd]; rfl
    rw [if_neg (not_lt.2 hip), faultWord_of_fetchInstr hip hfetch]
  | operandFetch hip => rw [if_neg (not_lt.2 hip)]; rfl
  | instr hip _ hraises => rw [if_neg (not_lt.2 hip), hraises.faultWord_eq]

/-- Settles O17: the info of each cause is what its phase looked at. -/
theorem faultRecordTellsPointerWordAndInfo : Obligations.FaultRecordTellsPointerWordAndInfo := by
  intro s t r h hr
  rw [← stepWith_params] at h
  obtain ⟨c, hraises, rfl⟩ := stepWith_raises h hr
  refine ⟨rfl, hraises.faultWord_eq, ?_⟩
  cases hraises with
  | fetch hip => exact ⟨rfl, hip⟩
  | decode _ hd =>
    rcases decodeWord_error hd with ⟨-, rfl⟩ | ⟨hw, hop, rfl⟩ | ⟨op, -, hop, ⟨-, -, rfl⟩ | hm⟩
    · rfl
    · exact ⟨hw, rfl, hop⟩
    · rfl
    · rcases decodeModes_error hm with ⟨k, h1, hk, hbad, rfl⟩ | ⟨d, hdest, hdigit, rfl⟩
      · exact ⟨op, hop, h1, hk, rfl, hbad⟩
      · exact ⟨op, hop, hdest, hdigit⟩
  | operandFetch _ h1 h3 habove => exact ⟨_, h1, h3, rfl, habove⟩
  | instr hip hi hr =>
    have hfirst := raises_wrap hr
    rcases firstOperandFault_some hfirst with ⟨j, rfl⟩ | ⟨j, ro, hj, hro, rfl, hrange⟩
    · exact absurd hfirst (firstOperandFault_ne_illegalWriteMode (fetchInstr_wellFormed hip hi))
    · exact ⟨hrange, _, ro, hi, hj, hro, rfl⟩

/-! ## Overflow (R147) -/

theorem firstOperandFault_code {k : Nat} {ops : List (Role × Operand)}
    (h : firstOperandFault s k ops = some c) : c.code ≠ 6 := by
  rcases firstOperandFault_some h with ⟨j, rfl⟩ | ⟨j, ro, -, -, rfl, -⟩ <;> simp [FaultCause.code]

/-- Under `wrap` no phase raises `ARITH_OVERFLOW`. -/
theorem StepRaises.code_ne_overflow (hp : p.overflow = .wrap) (h : StepRaises p s c) : c.code ≠ 6 := by
  cases h with
  | fetch | operandFetch => simp [FaultCause.code]
  | decode _ hd => have := decodeWord_error_code hd; omega
  | instr _ _ hr => rw [hp] at hr; exact firstOperandFault_code (raises_wrap hr)

/-- With `OVERFLOW` = `fault` an instruction whose effect is that of its narrowed exact result `x` has the
effect it has under `wrap` where `x` is in the word range, and raises the overflow fault elsewhere. -/
theorem execWith_fault_of_result {x : Int} {effect : Word → State}
    (heffect : ∀ policy r, narrow policy x = .ok r → Effect policy s i (effect r))
    (hraises : x < wordMin ∨ wordMax < x → Raises .fault s i (.arithOverflow x)) :
    execWith .fault i s =
      if wordMin ≤ x ∧ x ≤ wordMax then exec i s
      else .next (s.withFault (.arithOverflow x) (some s.opcodeWord)) := by
  by_cases hx : wordMin ≤ x ∧ x ≤ wordMax
  · have hfault : narrow .fault x = .ok (wrap64 x) := by rw [narrow_fault, if_pos hx]
    rw [if_pos hx, execWith_of_effect (heffect .fault _ hfault), exec_of_effect (heffect .wrap _ (narrow_wrap x))]
  · have hout := hraises (by omega)
    rw [if_neg hx, execWith_of_raises hout, raise_eq_withFault hout.faultWord_eq]

/-- Settles O59: an overflow fault is the narrowing of an exact result under `fault`, and nothing else looks at
the parameter. -/
theorem arithOverflowExistsOnlyUnderFault : Obligations.ArithOverflowExistsOnlyUnderFault := by
  refine ⟨fun p s t r hp h hr => ?_, fun s a b o x y d ha hb hd => ⟨?_, ?_⟩, fun s a v ha => ?_,
    fun s i c hc => ?_, fun s i hadd hmul harb => ?_⟩
  · obtain ⟨c, hraises, rfl⟩ := stepWith_raises h hr
    exact hraises.code_ne_overflow hp
  · exact execWith_fault_of_result (fun _ _ hr => .add ha hb hd hr) (.addOverflow ha hb hd rfl)
  · exact execWith_fault_of_result (fun _ _ hr => .mul ha hb hd hr) (.mulOverflow ha hb hd rfl)
  · exact execWith_fault_of_result (fun _ _ hr => .arb ha hr) (.arbOverflow ha rfl)
  · rw [execWith_of_raises (.operand hc), exec_eq_execWith, execWith_of_raises (.operand hc)]
  · cases i with
    | add a b o => exact absurd rfl (hadd a b o)
    | mul a b o => exact absurd rfl (hmul a b o)
    | arb a => exact absurd rfl (harb a)
    | _ => rfl

/-! ## Input pushed during a run (R160) -/

variable {values : List Word} {schedule : List (List Word)} {result : ResumeResult}

theorem blocked_appendInput (hb : blocked p s = false) : blocked p (s.appendInput values) = false := by
  refine Bool.eq_false_iff.2 fun hb' => ?_
  obtain ⟨hf, hq, hin⟩ := blocked_iff.1 hb'
  have hempty : s.inq = [] := (List.append_eq_nil_iff.1 hq).1
  rw [(blocked_iff (s := s)).2 ⟨hf, hempty, hin⟩] at hb
  cases hb

/-- Words behind the front of `INQ` ride along a step that continues. -/
theorem stepOutcome_continues_appendInput (h : stepOutcome p s = .continues t) (values : List Word) :
    stepOutcome p (s.appendInput values) = .continues (t.appendInput values) := by
  obtain ⟨-, hs, hl, hb⟩ := stepOutcome_continues h
  exact stepOutcome_of_live (appendedInputIsNotSeenUnlessBlocked p s t values hb hs) (by simpa using hl)
    (blocked_appendInput hb)

theorem resumePushed_live (h : s.live = true) :
    resumePushed p schedule values s = runLoopPushed p schedule (s.appendInput values) := by
  obtain ⟨hrunning, hf⟩ := (live_iff s).1 h
  simp [resumePushed, hrunning, hf]

/-- A stopped machine makes no step, so nothing is pushed (R130, R131). -/
theorem resumePushed_stopped {fuel : Nat} {values' : List Word} (h : s.live = false) :
    resumePushed p schedule values s = resume p fuel values' s := by
  rcases hf : s.fault with _ | rec
  · have hh : s.halted = true := (live_eq_false_iff.1 h).resolve_right (not_not.2 hf)
    simp [resumePushed, resume, hf, hh]
  · simp [resumePushed, resume, hf]

theorem runLoopPushed_eq_runLoop (hp : p.hostPushDuringRun = false) :
    runLoopPushed p schedule s = runLoop p schedule.length s := by
  induction schedule generalizing s with
  | nil => rfl
  | cons pushed later ih =>
    simp only [runLoopPushed, List.length_cons, runLoop, hp, Bool.false_eq_true, if_false]
    cases stepOutcome p s with
    | continues t => exact ih
    | _ => rfl

/-- A loop with pushes that returns is the loop with the words pushed until then queued before it: none of its
steps but the last can have seen where `INQ` ends. -/
theorem runLoop_of_runLoopPushed (hp : p.hostPushDuringRun = true)
    (h : runLoopPushed p schedule s = some (result, t)) :
    ∃ n, n ≤ schedule.length ∧
      runLoop p schedule.length (s.appendInput (schedule.take n).flatten) = some (result, t) := by
  induction schedule generalizing s with
  | nil => cases h
  | cons pushed later ih =>
    simp only [runLoopPushed, hp, if_true] at h
    cases ho : stepOutcome p (s.appendInput pushed) with
    | continues u =>
      rw [ho] at h
      obtain ⟨n, hn, hrun⟩ := ih h
      refine ⟨n + 1, Nat.succ_le_succ hn, ?_⟩
      rw [List.take_succ_cons, List.flatten_cons, ← appendInput_appendInput, List.length_cons,
        runLoop_continues (stepOutcome_continues_appendInput ho _), hrun]
    | _ =>
      rw [ho] at h
      have hpushed : ((pushed :: later).take 1).flatten = pushed := by simp
      refine ⟨1, Nat.succ_le_succ (Nat.zero_le _), ?_⟩
      rw [hpushed, List.length_cons, runLoop, ho]
      exact h

/-- Settles O57: a stopped machine takes no words, and a live one runs the same steps. -/
theorem pushesDuringARunAreAsIfQueuedBefore : Obligations.PushesDuringARunAreAsIfQueuedBefore := by
  intro p schedule values s
  cases hl : s.live with
  | false =>
    refine ⟨fun _ => resumePushed_stopped hl, fun r t _ h => ⟨0, Nat.zero_le _, ?_⟩⟩
    rw [← h, ← resumePushed_stopped hl]
  | true =>
    rw [resumePushed_live hl]
    refine ⟨fun hp => ?_, fun r t hp h => ?_⟩
    · rw [resume_live hl, runLoopPushed_eq_runLoop hp]
    · obtain ⟨n, hn, hrun⟩ := runLoop_of_runLoopPushed hp h
      exact ⟨n, hn, by rw [resume_live hl, ← appendInput_appendInput, hrun]⟩

end Sys2Proof.Machine

end
